-- ==== Sys2Proof/Word.lean ====
section
/-! DEFINITION. The word type of the machine (spec/10_state.md R20) and the byte of the character port and the
console (spec/20_memory.md R58, R61). -/

namespace Sys2Proof

/-- A Word: a 32-bit unsigned integer, instruction encoding or plain data alike (R20); bits 31 down to 0 (R10). -/
abbrev Word := BitVec 32

/-- A byte: what the character port emits (R58) and what a console rendering is made of (R61). -/
abbrev Byte := BitVec 8

end Sys2Proof
end

