-- ==== Sys2Proof/Config.lean ====
section
/-! DEFINITION. The named parameters of spec/00_scope.md R8 as data (Config), the types they are made of, and the one
free value of the spec (ROT_OVER). Which values are the defaults is said in Decode.lean (the opcode map) and in
Machine/Defaults.lean (the rest). -/

namespace Sys2Proof

/-- The fourteen mnemonics (R80), in the order of the spec's table. -/
inductive Mnemonic where
  | and | or | xor | add | ldv | stv | ldc | jmp | jmn | eql | hlt | not | rar | rrn
  deriving DecidableEq, Repr

/-- Parameter OPCODE_MAP (R8): the opcode number of each mnemonic, as the 8-bit number CI.opcode holds (R32): 0x00 to
0x0E for a standard mnemonic, 0xF0 to 0xFF for an extended one. -/
structure OpcodeMap where
  and : BitVec 8
  or : BitVec 8
  xor : BitVec 8
  add : BitVec 8
  ldv : BitVec 8
  stv : BitVec 8
  ldc : BitVec 8
  jmp : BitVec 8
  jmn : BitVec 8
  eql : BitVec 8
  hlt : BitVec 8
  not : BitVec 8
  rar : BitVec 8
  rrn : BitVec 8
  deriving DecidableEq, Repr

/-- The decoder's output, "Instruction: opcode, value, extended" (R32, R77): the opcode number in 8 bits and the value
zero-extended to 28 bits. -/
structure Decoded where
  opcode : BitVec 8
  value : BitVec 28
  extended : Bool
  deriving DecidableEq, Repr

/-- The operation tag ALU (R33): informational only; no transfer reads it. -/
inductive AluTag where
  | none | inc | and | or | xor | add | eql | not | rot
  deriving DecidableEq, Repr

/-- Parameter RESET_REGS (R8, R41): the values at creation of the registers the source does not initialise. -/
structure ResetRegs where
  ir : Word
  sar : Word
  sir : Word
  acc : Word
  x : Word
  y : Word
  z : Word
  alu : AluTag
  ci : Decoded
  deriving DecidableEq, Repr

/-- The parameters of R8, fixed for the lifetime of one engine. ROT_OVER is not a field: it is `Config.rotOver`. -/
structure Config where
  /-- MEM_WORDS: the number of storage words. -/
  memWords : Nat
  /-- IO_BOUNDARY: the first address of the memory-mapped I/O region. -/
  ioBoundary : Word
  /-- IO_CHAR_PORT: the character output port. -/
  ioCharPort : Word
  /-- IO_INT_PORT: the integer output port. -/
  ioIntPort : Word
  /-- OPCODE_MAP. -/
  opcodes : OpcodeMap
  /-- RESET_REGS. -/
  resetRegs : ResetRegs
  /-- LINE_TERMINATOR: what follows each emitted character or integer. -/
  lineTerminator : List Byte
  deriving DecidableEq, Repr

/-- FREE VALUE (R139, R8's ROT_OVER, spec/93 U3; notes/assumptions/2.md): the result of a rotate by more than 32. It has
no body, so nothing can be proved about it: `Config.rotOver n v k` is the result of the n-th such rotate of the run
(n counts them, so two rotates of equal operands may differ), of the value v by the amount k. -/
opaque Config.rotOver : Nat → Word → Word → Word

end Sys2Proof
end

