-- ==== Sys2Proof/Syntax.lean ====
section
/-! DEFINITION. The instruction set: one constructor per row of spec/opcode_table.json (spec/30_encoding.md R80). -/

namespace Sys2Proof

/-- The fourteen instructions (R80). The argument is the value field of the decoded instruction, held in 28 bits as CI
holds it (R32, R78); `rrn`'s value has only 24 bits in the encoding, which `Instr.wellFormed` says. HLT, NOT and RAR
have no argument: their value field is ignored, and all 2^24 such words are the same instruction (R83). -/
inductive Instr where
  /-- AND a: ACC and MEM[a] (R116). -/
  | and (a : BitVec 28)
  /-- OR a: ACC or MEM[a] (R117). -/
  | or (a : BitVec 28)
  /-- XOR a: ACC exclusive or MEM[a] (R118). -/
  | xor (a : BitVec 28)
  /-- ADD a: ACC plus MEM[a] modulo 2^32 (R119). -/
  | add (a : BitVec 28)
  /-- LDV a: load MEM[a] into ACC (R125). -/
  | ldv (a : BitVec 28)
  /-- STV a: store ACC at address a, or send it to an output port (R126). -/
  | stv (a : BitVec 28)
  /-- LDC c: load the 28-bit constant c into ACC (R127). -/
  | ldc (c : BitVec 28)
  /-- JMP t: jump to t (R130). -/
  | jmp (t : BitVec 28)
  /-- JMN t: jump to t if ACC is negative (R131). -/
  | jmn (t : BitVec 28)
  /-- EQL a: all ones if ACC = MEM[a], else 0 (R120). -/
  | eql (a : BitVec 28)
  /-- HLT: stop the run (R145). -/
  | hlt
  /-- NOT: complement ACC (R136). -/
  | not
  /-- RAR: rotate ACC right by one (R137). -/
  | rar
  /-- RRN n: rotate ACC right by n (R138, R139). -/
  | rrn (n : BitVec 28)
  deriving DecidableEq, Repr

end Sys2Proof
end

