-- ==== Sys2Proof/WellFormed.lean ====
section
/-! DEFINITION. Well-formed instructions (spec/30_encoding.md R76) and well-formed configurations (the constraints of
spec/00_scope.md R8 and R9). -/

namespace Sys2Proof

/-- RRN's value field has 24 bits in the extended format (R76, R138); every 28-bit value is a standard operand. -/
def Instr.wellFormed : Instr → Bool
  | .and _ => true
  | .or _ => true
  | .xor _ => true
  | .add _ => true
  | .ldv _ => true
  | .stv _ => true
  | .ldc _ => true
  | .jmp _ => true
  | .jmn _ => true
  | .eql _ => true
  | .hlt => true
  | .not => true
  | .rar => true
  | .rrn n => decide (n.toNat < 2 ^ 24)

/-- The fourteen mnemonics as a list. -/
def Mnemonic.all : List Mnemonic :=
  [.and, .or, .xor, .add, .ldv, .stv, .ldc, .jmp, .jmn, .eql, .hlt, .not, .rar, .rrn]

/-- The four extended mnemonics (R80). -/
def Mnemonic.isExtended : Mnemonic → Bool
  | .hlt | .not | .rar | .rrn => true
  | .and | .or | .xor | .add | .ldv | .stv | .ldc | .jmp | .jmn | .eql => false

/-- `opc(M)` of R11: the opcode map applied to a mnemonic. -/
def OpcodeMap.opc (m : OpcodeMap) : Mnemonic → BitVec 8
  | .and => m.and
  | .or => m.or
  | .xor => m.xor
  | .add => m.add
  | .ldv => m.ldv
  | .stv => m.stv
  | .ldc => m.ldc
  | .jmp => m.jmp
  | .jmn => m.jmn
  | .eql => m.eql
  | .hlt => m.hlt
  | .not => m.not
  | .rar => m.rar
  | .rrn => m.rrn

/-- The range R8 gives an opcode number: 0x0 to 0xE for a standard mnemonic, 0xF0 to 0xFF for an extended one. -/
def OpcodeMap.inRange (m : OpcodeMap) (M : Mnemonic) : Bool :=
  if M.isExtended then decide (0xF0 ≤ (m.opc M).toNat) else decide ((m.opc M).toNat ≤ 0xE)

/-- OPCODE_MAP is injective and each number is in its range (R8, R9). -/
def OpcodeMap.wf (m : OpcodeMap) : Bool :=
  decide (Mnemonic.all.map m.opc).Nodup && Mnemonic.all.all m.inRange

/-- The constraints among the parameters, checked at configuration time (R8, R9; D28). -/
def Config.wf (c : Config) : Bool :=
  decide (1 ≤ c.memWords) && decide (c.memWords ≤ c.ioBoundary.toNat)
    && decide (c.ioBoundary.toNat ≤ c.ioCharPort.toNat) && decide (c.ioBoundary.toNat ≤ c.ioIntPort.toNat)
    && decide (c.ioCharPort ≠ c.ioIntPort) && c.opcodes.wf

end Sys2Proof
end

