-- ==== Sys2Proof/Decode.lean ====
section
/-! DEFINITION. The decoder of spec/30_encoding.md R77, the opcode lookup of the dispatcher (spec/40_sequencer.md R101),
the encoder (R81), the default opcode map (R80) and the host's question about the opcode table. -/

namespace Sys2Proof

/-- Bits 31 to 28 of a Word. -/
def topNibble (w : Word) : BitVec 4 := w.extractLsb' 28 4

/-- The standard format has any top nibble but 0xF, the extended format has 0xF (R76, R79). -/
def isExtendedWord (w : Word) : Bool := topNibble w == 0xF#4

/-- `decode(w)` of R77: total, without side effects, reading nothing but w. -/
def decodeWord (w : Word) : Decoded :=
  if isExtendedWord w then
    { opcode := w.extractLsb' 24 8, value := (w.extractLsb' 0 24).setWidth 28, extended := true }
  else
    { opcode := (topNibble w).setWidth 8, value := w.extractLsb' 0 28, extended := false }

/-- Why a Word is no instruction: its opcode number is none of the fourteen (R82). -/
inductive DecodeReject where
  | invalidOpcode (opcode : BitVec 8)
  deriving DecidableEq, Repr

/-- The mnemonic M with opc(M) = o, if any (R101, R107). -/
def OpcodeMap.lookup (m : OpcodeMap) (o : BitVec 8) : Option Mnemonic :=
  Mnemonic.all.find? fun M => m.opc M == o

/-- The instruction a mnemonic and a value field make; HLT, NOT and RAR ignore the value (R78, R83). -/
def Mnemonic.toInstr : Mnemonic → BitVec 28 → Instr
  | .and, v => .and v
  | .or, v => .or v
  | .xor, v => .xor v
  | .add, v => .add v
  | .ldv, v => .ldv v
  | .stv, v => .stv v
  | .ldc, v => .ldc v
  | .jmp, v => .jmp v
  | .jmn, v => .jmn v
  | .eql, v => .eql v
  | .hlt, _ => .hlt
  | .not, _ => .not
  | .rar, _ => .rar
  | .rrn, v => .rrn v

/-- The mnemonic of an instruction. -/
def Instr.mnemonic : Instr → Mnemonic
  | .and _ => .and
  | .or _ => .or
  | .xor _ => .xor
  | .add _ => .add
  | .ldv _ => .ldv
  | .stv _ => .stv
  | .ldc _ => .ldc
  | .jmp _ => .jmp
  | .jmn _ => .jmn
  | .eql _ => .eql
  | .hlt => .hlt
  | .not => .not
  | .rar => .rar
  | .rrn _ => .rrn

/-- The value field of an instruction; 0 where it has none (R83, D22). -/
def Instr.value : Instr → BitVec 28
  | .and a => a
  | .or a => a
  | .xor a => a
  | .add a => a
  | .ldv a => a
  | .stv a => a
  | .ldc c => c
  | .jmp t => t
  | .jmn t => t
  | .eql a => a
  | .hlt => 0
  | .not => 0
  | .rar => 0
  | .rrn n => n

/-- Dispatch's choice of the handler (R101): by the opcode number of the decoded instruction alone. -/
def selectInstr (m : OpcodeMap) (d : Decoded) : Except DecodeReject Instr :=
  match m.lookup d.opcode with
  | some M => .ok (M.toInstr d.value)
  | none => .error (.invalidOpcode d.opcode)

/-- The instruction a Word is, or the reason why it is none: R77's decoder, then R101's selection. -/
def decode (m : OpcodeMap) (w : Word) : Except DecodeReject Instr :=
  selectInstr m (decodeWord w)

/-- `encode(M, v)` of R81 for a standard mnemonic: the opcode in bits 31 to 28, the value in bits 27 to 0. -/
def encodeStandard (o : BitVec 8) (v : BitVec 28) : Word :=
  (o.setWidth 32 <<< 28) ||| v.setWidth 32

/-- `encode(M, v)` of R81 for an extended mnemonic: the opcode in bits 31 to 24, the value masked to bits 23 to 0. -/
def encodeExtended (o : BitVec 8) (v : BitVec 28) : Word :=
  (o.setWidth 32 <<< 24) ||| (v.setWidth 32 &&& 0x00FFFFFF#32)

/-- The Word of an instruction (R81). -/
def encode (m : OpcodeMap) (i : Instr) : Word :=
  if i.mnemonic.isExtended then encodeExtended (m.opc i.mnemonic) i.value
  else encodeStandard (m.opc i.mnemonic) i.value

/-- The default OPCODE_MAP, the one of spec/opcode_table.json (R8, R80; D1; notes/assumptions/3.md). -/
def defaultOpcodes : OpcodeMap :=
  { and := 0x0, or := 0x1, xor := 0x2, add := 0x3, ldv := 0x4, stv := 0x5, ldc := 0x6, jmp := 0x7, jmn := 0x8,
    eql := 0x9, hlt := 0xF0, not := 0xF1, rar := 0xF2, rrn := 0xF3 }

/-- The one Word whose low `nbits` bits are w's and whose other bits are 0: how the host gives an instruction. -/
def tableWord (nbits w : Nat) : Word := BitVec.ofNat 32 (w % 2 ^ nbits)

/-- What the decoder reads, under the default opcode map, from an instruction given by its bits. -/
def decodeTableWord (nbits w : Nat) : Option Instr :=
  match decode defaultOpcodes (tableWord nbits w) with
  | .ok i => some i
  | .error _ => none

end Sys2Proof
end

