-- ==== Sys2Proof/Machine/Defaults.lean ====
section
/-! DEFINITION. The default configuration of spec/00_scope.md R8 (the spec's own choices) and the two reset values
that are decisions of the spec (D4, D5). -/

namespace Sys2Proof.Machine

/-- Default RESET_REGS: all zero, ALU = NONE, CI = decode(0) (R8, R41; D6). -/
def defaultResetRegs : ResetRegs :=
  { ir := 0, sar := 0, sir := 0, acc := 0, x := 0, y := 0, z := 0, alu := .none, ci := decodeWord 0 }

/-- The default column of R8's table (D1, D2, D3, D6, D18; notes/assumptions/3.md). -/
def defaultConfig : Config :=
  { memWords := 256
    ioBoundary := 0x0C000000
    ioCharPort := 0x0C000001
    ioIntPort := 0x0C000002
    opcodes := defaultOpcodes
    resetRegs := defaultResetRegs
    lineTerminator := [0x0A] }

/-- IAR at creation: execution begins at word address 0 (R22, R41; D4). -/
def entryPoint : Word := 0

/-- PH at creation: 1 begins a new instruction's fetch (R25, R41; D5). -/
def firstPhase : Nat := 1

end Sys2Proof.Machine
end

