-- ==== Sys2Proof/Machine/State.lean ====
section
/-! DEFINITION. The state of the machine (spec/10_state.md), the reasons a step answers no next state, and the state at
creation (R41). -/

namespace Sys2Proof.Machine

/-- A fault value, with the information the spec records (spec/60_exceptions.md R150). What the latch FAULT holds. -/
inductive FaultCause where
  /-- F_INVALID_OPCODE(CI.opcode): raised by the dispatcher in phase 6 on an opcode number of no mnemonic (R151).
  Safe: the spec's own fatal fault. -/
  | fInvalidOpcode (opcode : BitVec 8)
  /-- F_PHASE_RANGE(PH): raised by a step that finds PH outside 1 to 12 (R152). Safe: the spec's own fatal fault. -/
  | fPhaseRange (ph : Nat)
  /-- U_READ_IO(a): raised by phase 4 or 9 reading an address at or above IO_BOUNDARY (R57, R153). Safe: the source
  defines no value, and the model gives none. -/
  | uReadIo (a : Word)
  /-- U_OOB_READ(a): raised by phase 4 or 9 reading an address of the hole (R62, R153). Safe: as above. -/
  | uOobRead (a : Word)
  /-- U_OOB_WRITE(a): raised by STV's phase 7 storing to an address of the hole (R62, R153). Safe: as above. -/
  | uOobWrite (a : Word)
  deriving DecidableEq, Repr

/-- Why a step is not enabled (spec/40_sequencer.md R95): raised by `step` alone, never by an instruction. An
instruction that faults answers a next state with FAULT latched (R150). -/
inductive Fault where
  /-- RUN is false: the machine is halted and takes no step (R95, R146). Raised by `step`. Safe: the end of a run. -/
  | halted
  /-- FAULT holds c: the machine is stopped and takes no step (R35, R95, R150). Raised by `step`. Safe: nothing is said
  of a machine after a fault. -/
  | faulted (c : FaultCause)
  deriving DecidableEq, Repr

/-- Why a step has no meaning. No step of this model answers a refusal: every instruction has its meaning. -/
inductive Refusal where
  /-- An instruction whose meaning is not written, by its mnemonic: raised by a refused arm of `exec`, of which there is
  none. Safe. -/
  | notModelled (mnemonic : String)
  deriving DecidableEq, Repr

/-- An output event (R34): a store to the character port, or to the integer port. -/
inductive OutEvent where
  | char (b : Byte)
  | int (n : Int)
  deriving DecidableEq, Repr

/-- The memory array MEM (R36) as a list of word addresses and Words, in the canonical form of `Memory.wf`; a cell not
listed holds 0x00000000, what creation leaves in it (R36, R41; notes/assumptions/4.md). -/
abbrev Memory := List (Nat × Word)

/-- Every piece of state the spec gives the machine (R20 to R36), one field each, and two fields of the model's own,
`cfg` and `rotDraws`. ONE is hardwired and has no field: `State.one` (R31). -/
structure State where
  /-- ACC, the accumulator (R21). -/
  acc : Word
  /-- IAR, the instruction address register: the program counter (R22). -/
  iar : Word
  /-- IR, the instruction register (R23). -/
  ir : Word
  /-- RUN, the run flag (R24). -/
  run : Bool
  /-- PH, the phase counter, legal from 1 to 12 (R25). -/
  ph : Nat
  /-- SAR, the memory address latch (R26). -/
  sar : Word
  /-- SIR, the memory data latch (R27). -/
  sir : Word
  /-- X, the first operand latch (R28). -/
  x : Word
  /-- Y, the second operand latch (R29). -/
  y : Word
  /-- Z, the result latch (R30). -/
  z : Word
  /-- ALU, the operation tag, informational only (R33). -/
  alu : AluTag
  /-- CI, the decoded current instruction (R32). -/
  ci : Decoded
  /-- MEM, the memory array (R36). -/
  mem : Memory
  /-- OUT, the output events in the order they were emitted (R34). -/
  out : List OutEvent
  /-- DIAG, the addresses of discarded stores (R34, R60). -/
  diag : List Word
  /-- FAULT, the fault latch (R35). -/
  fault : Option FaultCause
  /-- The MODEL's own: how many unspecified rotate results the run has drawn (notes/assumptions/2.md). -/
  rotDraws : Nat
  /-- The MODEL's own: the parameters of R8, which no step writes (R43; notes/assumptions/1.md). -/
  cfg : Config
  deriving DecidableEq, Repr

/-- What a phase answers. -/
abbrev StepOutcome := Host.Outcome State Fault Refusal

/-- The state at creation under the parameters c (R41, R175). -/
def State.create (c : Config) : State :=
  { acc := c.resetRegs.acc
    iar := entryPoint
    ir := c.resetRegs.ir
    run := true
    ph := firstPhase
    sar := c.resetRegs.sar
    sir := c.resetRegs.sir
    x := c.resetRegs.x
    y := c.resetRegs.y
    z := c.resetRegs.z
    alu := c.resetRegs.alu
    ci := c.resetRegs.ci
    mem := []
    out := []
    diag := []
    fault := none
    rotDraws := 0
    cfg := c }

/-- The machine right after reset, under the default parameters (R41). -/
def State.reset : State := State.create defaultConfig

end Sys2Proof.Machine
end

