-- ==== Sys2Proof/Machine/Ops.lean ====
section
/-! DEFINITION. The named operations over memory and registers: reading and writing a cell, the two access primitives
MemRead and MemWrite (spec/20_memory.md R55, R56), taking a fault (spec/60_exceptions.md R150) and ending a phase
(spec/40_sequencer.md R103). There is no return from a fault beside it: the spec has none (R160). -/

namespace Sys2Proof.Machine

/-! ### The memory array -/

/-- The Word at a word address; 0 where no cell is listed (R36: "zero-initialized"). -/
def Memory.read : Memory → Nat → Word
  | [], _ => 0
  | c :: m, a => if c.1 = a then c.2 else Memory.read m a

/-- Put a cell at its place in the rising order. -/
def Memory.insert (a : Nat) (v : Word) : Memory → Memory
  | [] => [(a, v)]
  | c :: m => if a < c.1 then (a, v) :: c :: m else c :: Memory.insert a v m

/-- The memory with MEM[a] <- v, in canonical form: a zero Word is not listed. -/
def Memory.write (m : Memory) (a : Nat) (v : Word) : Memory :=
  let rest := m.filter fun c => c.1 != a
  if v = 0 then rest else Memory.insert a v rest

/-- The canonical form: addresses strictly rising, no cell equal to what an unlisted address reads as. -/
abbrev Memory.wf (m : Memory) : Prop :=
  m.Pairwise (fun c d => c.1 < d.1) ∧ ∀ c ∈ m, c.2 ≠ 0

/-- Every listed cell is one of the first `words` cells: MEM has exactly MEM_WORDS cells (R36, R40 (g)). -/
abbrev Memory.within (m : Memory) (words : Nat) : Prop :=
  ∀ c ∈ m, c.1 < words

/-! ### The regions of the address space (R51) -/

/-- A storage address: 0 to MEM_WORDS − 1 (R51 (a)). -/
def isStorage (c : Config) (a : Word) : Bool := decide (a.toNat < c.memWords)

/-- An address of the I/O region: IO_BOUNDARY to 2^32 − 1 (R51 (b)). -/
def isIo (c : Config) (a : Word) : Bool := decide (c.ioBoundary.toNat ≤ a.toNat)

/-! ### Registers -/

/-- ONE always reads 0x00000001 and nothing writes it (R31; D26). -/
def State.one (_ : State) : Word := 1

/-! ### Taking a fault -/

/-- `raise F`: FAULT <- F and no other state changes (R150, R159). -/
def State.raise (s : State) (c : FaultCause) : StepOutcome := .next { s with fault := some c }

/-! ### The access primitives -/

/-- `MemRead(a)` of R55. -/
def State.memRead (s : State) (a : Word) : Except FaultCause Word :=
  if isStorage s.cfg a then .ok (s.mem.read a.toNat)
  else if isIo s.cfg a then .error (.uReadIo a)
  else .error (.uOobRead a)

/-- `emit e`: append an event to OUT (R34). -/
def State.emit (s : State) (e : OutEvent) : State := { s with out := s.out ++ [e] }

/-- `MemWrite(a, v)` of R56: storage, the hole, the character port (R58), the integer port (R59), or a discarded store
(R60). -/
def State.memWrite (s : State) (a v : Word) : Except FaultCause State :=
  if isStorage s.cfg a then .ok { s with mem := s.mem.write a.toNat v }
  else if !isIo s.cfg a then .error (.uOobWrite a)
  else if a = s.cfg.ioCharPort then .ok (s.emit (.char (v.setWidth 8)))
  else if a = s.cfg.ioIntPort then .ok (s.emit (.int v.toInt))
  else .ok { s with diag := s.diag ++ [a] }

/-- `SIR <- MemRead(SAR)` of phase 9 (R52 (b), R115, R125). -/
def State.readToSir (s : State) : StepOutcome :=
  match s.memRead s.sar with
  | .ok w => .next { s with sir := w }
  | .error c => s.raise c

/-! ### Ending a phase -/

/-- The counter's successor: 1 after 12 (R103). -/
def nextPhase (p : Nat) : Nat := if p = 12 then 1 else p + 1

/-- R103 after a phase's transfers: PH advances, but not after a phase that raised a fault (R104). A step starts with
FAULT = none (R95), so FAULT is set here exactly when this phase raised. -/
def State.endPhase (s : State) : State :=
  match s.fault with
  | none => { s with ph := nextPhase s.ph }
  | some _ => s

/-- `State.endPhase` on what a phase answers. -/
def endPhase : StepOutcome → StepOutcome
  | .next s => .next s.endPhase
  | .fault r => .fault r
  | .refused r => .refused r

end Sys2Proof.Machine
end

