-- ==== Sys2Proof/Machine/Operands.lean ====
section
/-! DEFINITION. The operand form (spec/30_encoding.md R78, spec/20_memory.md R53) and the rotate of
spec/44_unary_rotate.md R135, R139. -/

namespace Sys2Proof.Machine

/-- `zext_32(CI.value)`: the value field moved into a 32-bit register (R78), which is the absolute effective address of
an operand read or a store (R53). -/
def operandWord (v : BitVec 28) : Word := v.setWidth 32

/-- `rotr(v, k)` for 0 ≤ k ≤ 32: (v >> k) | (v << (32 − k)), a shift by 32 or more yielding 0 (R10, R135). -/
def rotr (v : Word) (k : Nat) : Word := (v >>> k) ||| (v <<< (32 - k))

/-- Phase 11 of RAR and RRN: `Z <- rotr(X, Y)` for Y ≤ 32; an unspecified value, a free draw, for a larger Y (R137, R138,
R139). -/
def State.rotateToZ (s : State) : State :=
  if s.y.toNat ≤ 32 then { s with z := rotr s.x s.y.toNat }
  else { s with z := Config.rotOver s.rotDraws s.x s.y, rotDraws := s.rotDraws + 1 }

end Sys2Proof.Machine
end

