-- ==== Sys2Proof/Machine/Flags.lean ====
section
/-! DEFINITION. The machine has no flags and no condition codes (spec/10_state.md R37). What stands in their place: JMN's
test of ACC (spec/43_jumps.md R131) and the Word EQL leaves in ACC (spec/41_alu_group.md R120). -/

namespace Sys2Proof.Machine

/-- "negative" as a signed 32-bit number: bit 31 set (R131). -/
def isNegative (w : Word) : Bool := w.getLsbD 31

/-- EQL's result: all ones if the operands are equal, else 0 (R120). -/
def eqlWord (x y : Word) : Word := if x = y then 0xFFFFFFFF else 0

end Sys2Proof.Machine
end

