-- ==== Sys2Proof/Machine/AluGroup.lean ====
section
/-! DEFINITION. The ALU group AND, OR, XOR, ADD, EQL (spec/41_alu_group.md): phases 6 to 12. -/

namespace Sys2Proof.Machine

/-- The common handler of R115: `op` is the operation of phase 11, `tag` the value of the ALU tag (D13). -/
def aluGroup (tag : AluTag) (op : Word → Word → Word) (a : BitVec 28) (s : State) : StepOutcome :=
  match s.ph with
  | 6 => .next { s with sar := operandWord a }
  | 7 => .next { s with x := s.acc }
  | 9 => s.readToSir
  | 10 => .next { s with y := s.sir, alu := tag }
  | 11 => .next { s with z := op s.x s.y }
  | 12 => .next { s with acc := s.z }
  | _ => .next s

/-- AND a (R115, R116). -/
def execAnd (a : BitVec 28) (s : State) : StepOutcome := aluGroup .and (fun x y => x &&& y) a s

/-- OR a (R115, R117). -/
def execOr (a : BitVec 28) (s : State) : StepOutcome := aluGroup .or (fun x y => x ||| y) a s

/-- XOR a (R115, R118). -/
def execXor (a : BitVec 28) (s : State) : StepOutcome := aluGroup .xor (fun x y => x ^^^ y) a s

/-- ADD a: 32-bit wraparound add (R115, R119). -/
def execAdd (a : BitVec 28) (s : State) : StepOutcome := aluGroup .add (fun x y => x + y) a s

/-- EQL a: all ones or zero (R115, R120). -/
def execEql (a : BitVec 28) (s : State) : StepOutcome := aluGroup .eql eqlWord a s

end Sys2Proof.Machine
end

