-- ==== Sys2Proof/Machine/Halt.lean ====
section
/-! DEFINITION. HLT (spec/45_halt.md): phases 6 to 12. -/

namespace Sys2Proof.Machine

/-- HLT (R145): RUN stays true through phases 6 to 11. -/
def execHlt (s : State) : StepOutcome :=
  match s.ph with
  | 12 => .next { s with run := false }
  | _ => .next s

end Sys2Proof.Machine
end

