-- ==== Sys2Proof/Machine/Jumps.lean ====
section
/-! DEFINITION. JMP and JMN (spec/43_jumps.md): phases 6 to 12. -/

namespace Sys2Proof.Machine

/-- JMP t (R130). -/
def execJmp (t : BitVec 28) (s : State) : StepOutcome :=
  match s.ph with
  | 6 => .next { s with iar := operandWord t }
  | _ => .next s

/-- JMN t (R131). -/
def execJmn (t : BitVec 28) (s : State) : StepOutcome :=
  match s.ph with
  | 6 => if isNegative s.acc then .next { s with iar := operandWord t } else .next s
  | _ => .next s

end Sys2Proof.Machine
end

