-- ==== Sys2Proof/Machine/LoadStore.lean ====
section
/-! DEFINITION. LDV, STV and LDC (spec/42_load_store_constant.md): phases 6 to 12. -/

namespace Sys2Proof.Machine

/-- LDV a (R125). -/
def execLdv (a : BitVec 28) (s : State) : StepOutcome :=
  match s.ph with
  | 6 => .next { s with sar := operandWord a }
  | 9 => s.readToSir
  | 10 => .next { s with acc := s.sir }
  | _ => .next s

/-- STV's phase 7: SAR <- value, then the write through the new SAR, in this order and in one phase (R104, R126); a store
that faults commits neither (R104). -/
def storePhase (a : BitVec 28) (s : State) : StepOutcome :=
  match { s with sar := operandWord a }.memWrite (operandWord a) s.sir with
  | .ok t => .next t
  | .error c => s.raise c

/-- STV a (R126). -/
def execStv (a : BitVec 28) (s : State) : StepOutcome :=
  match s.ph with
  | 6 => .next { s with sir := s.acc }
  | 7 => storePhase a s
  | _ => .next s

/-- LDC c (R127). -/
def execLdc (c : BitVec 28) (s : State) : StepOutcome :=
  match s.ph with
  | 6 => .next { s with acc := operandWord c }
  | _ => .next s

end Sys2Proof.Machine
end

