-- ==== Sys2Proof/Machine/UnaryRotate.lean ====
section
/-! DEFINITION. NOT, RAR and RRN (spec/44_unary_rotate.md): phases 6 to 12. -/

namespace Sys2Proof.Machine

/-- NOT (R136): neither reads nor writes Y. -/
def execNot (s : State) : StepOutcome :=
  match s.ph with
  | 7 => .next { s with x := s.acc }
  | 10 => .next { s with alu := .not }
  | 11 => .next { s with z := ~~~s.x }
  | 12 => .next { s with acc := s.z }
  | _ => .next s

/-- What RAR and RRN share: `amount` is what phase 10 writes into Y (R137, R138). -/
def rotateGroup (amount : Word) (s : State) : StepOutcome :=
  match s.ph with
  | 7 => .next { s with x := s.acc }
  | 10 => .next { s with y := amount, alu := .rot }
  | 11 => .next s.rotateToZ
  | 12 => .next { s with acc := s.z }
  | _ => .next s

/-- RAR: rotate by ONE (R137). -/
def execRar (s : State) : StepOutcome := rotateGroup s.one s

/-- RRN n: rotate by the value field (R138, R139). -/
def execRrn (n : BitVec 28) (s : State) : StepOutcome := rotateGroup (operandWord n) s

end Sys2Proof.Machine
end

