-- ==== Sys2Proof/Machine/Dispatch.lean ====
section
/-! DEFINITION. `exec i s`: the transfers of instruction i's handler in phase PH of s (spec/40_sequencer.md R101, R102);
the step advances PH afterwards (R103). -/

namespace Sys2Proof.Machine

def exec (i : Instr) (s : State) : Host.Outcome State Fault Refusal :=
  match i with
  | .and a => Sys2Proof.Machine.execAnd a s
  | .or a => Sys2Proof.Machine.execOr a s
  | .xor a => Sys2Proof.Machine.execXor a s
  | .add a => Sys2Proof.Machine.execAdd a s
  | .ldv a => Sys2Proof.Machine.execLdv a s
  | .stv a => Sys2Proof.Machine.execStv a s
  | .ldc c => Sys2Proof.Machine.execLdc c s
  | .jmp t => Sys2Proof.Machine.execJmp t s
  | .jmn t => Sys2Proof.Machine.execJmn t s
  | .eql a => Sys2Proof.Machine.execEql a s
  | .hlt => Sys2Proof.Machine.execHlt s
  | .not => Sys2Proof.Machine.execNot s
  | .rar => Sys2Proof.Machine.execRar s
  | .rrn n => Sys2Proof.Machine.execRrn n s

end Sys2Proof.Machine
end

