-- ==== Sys2Proof/Machine/Sequencer.lean ====
section
/-! DEFINITION. The 12-phase micro-sequencer (spec/40_sequencer.md): the fetch phases R96 to R100, dispatch R101, the step
R107 and when it is enabled R95, each over the handlers as an argument. -/

namespace Sys2Proof.Machine

/-- Phase 4 (R99): one read of MEM[SAR] feeds SIR and the decoder; a read that faults leaves IAR, CI and SIR. -/
def fetchRead (s : State) : StepOutcome :=
  match s.memRead s.sar with
  | .ok w => .next { s with iar := s.z, ci := decodeWord w, sir := w }
  | .error c => s.raise c

/-- The fetch phases 1 to 5 (R96 to R100). -/
def fetchPhase (s : State) : StepOutcome :=
  match s.ph with
  | 1 => .next { s with sar := s.iar, x := s.iar }
  | 2 => .next { s with y := s.one, alu := .inc }
  | 3 => .next { s with z := s.x + s.y }
  | 4 => fetchRead s
  | 5 => .next { s with ir := s.sir }
  | _ => .next s

/-- The execute phases 6 to 12 (R101): the handler of the mnemonic CI.opcode selects, or F_INVALID_OPCODE. -/
def executePhase (handler : Instr → State → StepOutcome) (s : State) : StepOutcome :=
  match selectInstr s.cfg.opcodes s.ci with
  | .ok i => handler i s
  | .error (.invalidOpcode o) => s.raise (.fInvalidOpcode o)

/-- An enabled step (R107): the range check, the phase, the counter. -/
def phaseStep (handler : Instr → State → StepOutcome) (s : State) : StepOutcome :=
  if s.ph < 1 ∨ 12 < s.ph then s.raise (.fPhaseRange s.ph)
  else if s.ph ≤ 5 then endPhase (fetchPhase s)
  else endPhase (executePhase handler s)

/-- A step is enabled exactly when RUN = true and FAULT = none (R95). -/
def stepWith (handler : Instr → State → StepOutcome) (s : State) : StepOutcome :=
  match s.fault with
  | some c => .fault (.faulted c)
  | none => if s.run then phaseStep handler s else .fault .halted

/-- The net effect of phases 1 to 5 on a state with PH = 1 whose MEM[IAR] is w (R106). -/
def State.afterFetch (s : State) (w : Word) : State :=
  { s with
    sar := s.iar
    x := s.iar
    y := s.one
    alu := .inc
    z := s.iar + s.one
    iar := s.iar + s.one
    ci := decodeWord w
    sir := w
    ir := w
    ph := 6 }

/-- MEM[IAR] <- w where IAR is a storage address; elsewhere there is no cell to write. -/
def State.placeWord (s : State) (w : Word) : State :=
  { s with mem := if isStorage s.cfg s.iar then s.mem.write s.iar.toNat w else s.mem }

/-- s with the Word w at IAR and its five fetch phases done: the next step runs w's first execute phase. -/
def State.fetched (s : State) (w : Word) : State := (s.placeWord w).afterFetch w

end Sys2Proof.Machine
end

