-- ==== Sys2Proof/Machine/Step.lean ====
section
/-! DEFINITION. One step: one phase, one micro-cycle (spec/00_scope.md R5, spec/40_sequencer.md R107). -/

namespace Sys2Proof.Machine

/-- One invocation advances one phase (R5, R42 (b), R107). -/
def step (s : State) : Host.Outcome State Fault Refusal := stepWith exec s

/-- s with the instruction given by its bits as the one the very next step runs (notes/assumptions/5.md): its Word in
MEM[IAR] and the five fetch phases done, which is what it takes on this machine for a step to be an instruction's. -/
def State.withFetchWord (s : State) (nbits w : Nat) : State := s.fetched (tableWord nbits w)

end Sys2Proof.Machine
end

