-- ==== Sys2Proof/Machine/Boot.lean ====
section
/-! DEFINITION. What the host may do before the first step: create the engine and load the image
(spec/70_reset_and_hazards.md R175, R177, R185). -/

namespace Sys2Proof.Machine

/-- Why the host's request is not accepted. -/
inductive BootError where
  /-- The parameters break the constraints of R9 (spec/93 U8: refuse). -/
  | badConfig
  /-- A load outside storage: the host "must write only addresses below MEM_WORDS" (R177, R185). -/
  | loadOutside (a : Nat)
  deriving DecidableEq, Repr

/-- Write the image's Words into storage, in order (R177 (a)). -/
def State.load : State → List (Nat × Word) → Except BootError State
  | s, [] => .ok s
  | s, c :: rest =>
    if c.1 < s.cfg.memWords then State.load { s with mem := s.mem.write c.1 c.2 } rest
    else .error (.loadOutside c.1)

/-- Create an engine, load an image, and clear RUN if the image's build had errors (R175, R177): the state the first
step sees. `runFlag` is the assembler's initial run flag (R4 (a), R91). -/
def State.boot (c : Config) (image : List (Nat × Word)) (runFlag : Bool) : Except BootError State :=
  if c.wf then
    match (State.create c).load image with
    | .ok s => .ok { s with run := runFlag }
    | .error e => .error e
  else .error .badConfig

end Sys2Proof.Machine
end

