-- ==== Sys2Proof/Machine/Console.lean ====
section
/-! DEFINITION. Rendering OUT as a byte stream (spec/20_memory.md R61; D18). -/

namespace Sys2Proof.Machine

/-- The decimal digits of n in ASCII, most significant first, in at most `fuel` digits before `rest`. -/
def decimalDigits : Nat → Nat → List Byte → List Byte
  | 0, _, rest => rest
  | fuel + 1, n, rest =>
    let here := BitVec.ofNat 8 (0x30 + n % 10) :: rest
    if n / 10 = 0 then here else decimalDigits fuel (n / 10) here

/-- A natural number in ASCII, with no leading zeros, the single digit 0 for 0 (R61). -/
def decimal (n : Nat) : List Byte := decimalDigits (n + 1) n []

/-- A signed decimal integer: the byte 0x2D before a negative number's digits, nothing before others (R61). -/
def signedDecimal (n : Int) : List Byte := if n < 0 then 0x2D :: decimal n.natAbs else decimal n.natAbs

/-- One event's bytes, without the line terminator (R61). -/
def OutEvent.bytes : OutEvent → List Byte
  | .char b => [b]
  | .int n => signedDecimal n

/-- OUT as bytes: each event followed by LINE_TERMINATOR, in the order they were emitted (R58, R59, R61). -/
def renderOut (terminator : List Byte) : List OutEvent → List Byte
  | [] => []
  | e :: rest => e.bytes ++ terminator ++ renderOut terminator rest

/-- What the console of a machine in state s has received (R61). -/
def State.console (s : State) : List Byte := renderOut s.cfg.lineTerminator s.out

end Sys2Proof.Machine
end

