-- ==== Sys2Proof/Machine/Debug.lean ====
section
/-! DEFINITION. The debug snapshots (spec/60_exceptions.md R166): read-only, functions of the state. -/

namespace Sys2Proof.Machine

/-- The registers of R166's `snapshot_registers()`: every control, datapath and memory-latch register; not CI. -/
structure RegSnapshot where
  ir : Word
  iar : Word
  run : Bool
  ph : Nat
  sar : Word
  sir : Word
  acc : Word
  x : Word
  y : Word
  z : Word
  one : Word
  alu : AluTag
  deriving DecidableEq, Repr

/-- `snapshot_registers()` (R166). -/
def State.snapshotRegisters (s : State) : RegSnapshot :=
  { ir := s.ir, iar := s.iar, run := s.run, ph := s.ph, sar := s.sar, sir := s.sir, acc := s.acc, x := s.x, y := s.y,
    z := s.z, one := s.one, alu := s.alu }

/-- `snapshot_memory(start, count)` (R166): MEM[start] to MEM[min(start + count, MEM_WORDS) − 1], nothing when start is
at or above MEM_WORDS. -/
def State.snapshotMemory (s : State) (start count : Nat) : List Word :=
  (List.range (min (start + count) s.cfg.memWords - start)).map fun k => s.mem.read (start + k)

end Sys2Proof.Machine
end

