-- ==== Sys2Proof/Machine/Run.lean ====
section
/-! DEFINITION. The run loop and the end of a run (spec/40_sequencer.md R105, spec/70_reset_and_hazards.md R179). -/

namespace Sys2Proof.Machine

/-- k steps, ending at the first step that is not enabled. -/
def steps : Nat → State → StepOutcome
  | 0, s => .next s
  | k + 1, s =>
    match step s with
    | .next t => steps k t
    | .fault r => .fault r
    | .refused r => .refused r

/-- How a run stands after a number of steps (R105): halted, faulted, or still running. -/
inductive RunEnd where
  /-- (a) RUN is false and FAULT is none: the only normal end. -/
  | halted (s : State)
  /-- (b) FAULT is set: never a normal end. -/
  | faulted (c : FaultCause) (s : State)
  /-- Still running after the steps allowed; for ever so in case (c). -/
  | running (s : State)
  /-- A step was refused: never so in this model. -/
  | refused (r : Refusal) (s : State)
  deriving DecidableEq, Repr

/-- The run loop applies the step while it is enabled, here at most `fuel` times (R105). -/
def runLoop : Nat → State → RunEnd
  | 0, s =>
    match step s with
    | .fault .halted => .halted s
    | .fault (.faulted c) => .faulted c s
    | .refused r => .refused r s
    | .next _ => .running s
  | fuel + 1, s =>
    match step s with
    | .fault .halted => .halted s
    | .fault (.faulted c) => .faulted c s
    | .refused r => .refused r s
    | .next t => runLoop fuel t

end Sys2Proof.Machine
end

