-- ==== Sys2Proof/Safety.lean ====
section
/-! DEFINITION. The terms the statements use: when a state is at the start of an instruction, what a good end of a run is
(spec/40_sequencer.md R105), the invariant of every state reached from creation (spec/10_state.md R40,
spec/70_reset_and_hazards.md R181), and the spec's meaning of each ALU-group instruction (spec/41_alu_group.md). -/

namespace Sys2Proof.Machine

/-- A step is enabled (R95). -/
abbrev State.enabled (s : State) : Prop := s.run = true ∧ s.fault = none

/-- s is at the first phase of an instruction that can be fetched: a step is enabled, PH = 1, and IAR is a storage
address whose Word is w. -/
abbrev State.atWord (s : State) (w : Word) : Prop :=
  s.enabled ∧ s.ph = 1 ∧ isStorage s.cfg s.iar = true ∧ s.mem.read s.iar.toNat = w

/-- s is at the first phase of the instruction i, whose Word is w. -/
abbrev State.atInstr (s : State) (w : Word) (i : Instr) : Prop :=
  s.atWord w ∧ decode s.cfg.opcodes w = .ok i

/-- s is in an execute phase p of the instruction i (R101). -/
abbrev State.inPhase (s : State) (p : Nat) (i : Instr) : Prop :=
  s.enabled ∧ s.ph = p ∧ selectInstr s.cfg.opcodes s.ci = .ok i

/-- The only normal end of a run (R105 (a)). -/
abbrev State.haltedNormally (s : State) : Prop := s.run = false ∧ s.fault = none ∧ s.ph = 1

/-- What holds in every state reached from creation. -/
structure State.Inv (s : State) : Prop where
  /-- PH is in 1 to 12 (R25, R40 (a)). -/
  phase : 1 ≤ s.ph ∧ s.ph ≤ 12
  /-- The memory is in canonical form. -/
  memForm : s.mem.wf
  /-- MEM has MEM_WORDS cells and no more (R40 (g)). -/
  memBound : s.mem.within s.cfg.memWords
  /-- Int(n) has −2^31 ≤ n ≤ 2^31 − 1 (R34). -/
  outRange : ∀ n, OutEvent.int n ∈ s.out → -(2 ^ 31) ≤ n ∧ n ≤ 2 ^ 31 - 1
  /-- In phase 5 CI is the decoding of SIR (R40 (e)). -/
  ciOfSir : s.ph = 5 → s.ci = decodeWord s.sir
  /-- In phases 6 to 12 CI is the decoding of IR (R40 (e)). -/
  ciOfIr : 6 ≤ s.ph → s.ci = decodeWord s.ir
  /-- From phase 7 on CI selects a handler: phase 6 has passed (R102). -/
  selected : 7 ≤ s.ph → ∃ i, selectInstr s.cfg.opcodes s.ci = .ok i
  /-- From phase 2 until phase 4 SAR and X hold the address of the instruction being fetched (R96, R181 (b), (c)). -/
  fetchAddress : 2 ≤ s.ph ∧ s.ph ≤ 4 → s.sar = s.iar ∧ s.x = s.iar
  /-- From phase 3 until phase 4 Y holds 1 (R97, R181 (c)). -/
  fetchOne : 3 ≤ s.ph ∧ s.ph ≤ 4 → s.y = 1
  /-- In phase 4 Z holds the address of the next Word (R98, R181 (c)). -/
  fetchNext : s.ph = 4 → s.z = s.iar + 1

/-- R40 (e) with its clause for phases 1 to 4 of a state in which an instruction has completed. -/
structure State.CiMatchesIr (s : State) : Prop where
  /-- In every phase but 5 CI is the decoding of IR. -/
  ofIr : s.ph ≠ 5 → s.ci = decodeWord s.ir
  /-- In phase 5 CI is the decoding of SIR. -/
  ofSir : s.ph = 5 → s.ci = decodeWord s.sir

/-- The address operand and the operation of phase 11 of the five ALU-group instructions (R115 to R120). -/
def aluMeaning : Instr → Option (BitVec 28 × (Word → Word → Word))
  | .and a => some (a, fun x y => x &&& y)
  | .or a => some (a, fun x y => x ||| y)
  | .xor a => some (a, fun x y => x ^^^ y)
  | .add a => some (a, fun x y => x + y)
  | .eql a => some (a, fun x y => if x = y then 0xFFFFFFFF else 0)
  | .ldv _ | .stv _ | .ldc _ | .jmp _ | .jmn _ | .hlt | .not | .rar | .rrn _ => none

/-- The amount phase 10 of the two rotate instructions writes into Y (R137, R138). -/
def rotateMeaning : Instr → Option Word
  | .rar => some 1
  | .rrn n => some (n.setWidth 32)
  | .and _ | .or _ | .xor _ | .add _ | .eql _ | .ldv _ | .stv _ | .ldc _ | .jmp _ | .jmn _ | .hlt | .not => none

/-- The Word an image leaves at a storage address: the last one written there, 0 if none was (R177). -/
def lastLoaded (image : List (Nat × Word)) (a : Nat) : Word :=
  image.foldl (fun v c => if c.1 = a then c.2 else v) 0

/-- The number a list of ASCII digits denotes, most significant digit first. -/
def digitsValue (ds : List Byte) : Nat := ds.foldl (fun n d => 10 * n + (d.toNat - 0x30)) 0

/-- The fault of a read outside storage (R57, R62). -/
def readFault (c : Config) (a : Word) : FaultCause := if c.ioBoundary.toNat ≤ a.toNat then .uReadIo a else .uOobRead a

/-- Two states equal in everything but the ALU tag (R33). -/
def State.sameButTag (s t : State) : Prop := { s with alu := t.alu } = t

/-- Two outcomes equal in everything but the ALU tag of a next state. -/
def sameOutcomeButTag : StepOutcome → StepOutcome → Prop
  | .next s, .next t => s.sameButTag t
  | .fault a, .fault b => a = b
  | .refused a, .refused b => a = b
  | .next _, .fault _ => False
  | .next _, .refused _ => False
  | .fault _, .next _ => False
  | .fault _, .refused _ => False
  | .refused _, .next _ => False
  | .refused _, .fault _ => False

end Sys2Proof.Machine
end

