-- ==== Sys2Proof/Certificates/Slice0/Obligations.lean ====
section
/-! DEFINITION. The statements for the provers, in the order of spec/: encoding, the sequencer, memory, the handlers phase
by phase, the net effect of each instruction, the whole-machine rules, the host's side. No statement speaks of the value
of the ALU tag (spec/10_state.md R33): where an equation of whole states needs one, it is "some tag". -/

open Sys2Proof Sys2Proof.Machine

/-! ### Encoding (spec/30_encoding.md) -/

/-- R77: the decoder splits every Word by its top nibble; the rule's two worked Words; and the machine decodes the Word
at SAR in phase 4. -/
def Obligations.DecoderSplitsEveryWord : Prop :=
  (∀ w : Word, w >>> 28 ≠ 0xF →
    (decodeWord w).opcode.setWidth 32 = w >>> 28 ∧ (decodeWord w).value.setWidth 32 = w &&& 0x0FFFFFFF ∧
      (decodeWord w).extended = false) ∧
  (∀ w : Word, w >>> 28 = 0xF →
    (decodeWord w).opcode.setWidth 32 = w >>> 24 ∧ (decodeWord w).value.setWidth 32 = w &&& 0x00FFFFFF ∧
      (decodeWord w).extended = true) ∧
  decodeWord 0x60000005 = { opcode := 0x6, value := 0x0000005, extended := false } ∧
  decodeWord 0xF300001F = { opcode := 0xF3, value := 0x00001F, extended := true } ∧
  (∀ s : State, s.enabled → s.ph = 4 → isStorage s.cfg s.sar = true →
    ∃ t, step s = .next t ∧ t.ci = decodeWord (s.mem.read s.sar.toNat))

/-- R81: `encode(M, v)` is the opcode over the masked value, and the decoder gives the opcode, the masked value and the
format back, for every opcode map the configuration rules allow. -/
def Obligations.EncodingIsInvertedByDecoder : Prop :=
  ∀ (m : OpcodeMap) (M : Mnemonic) (v : Word), m.wf = true →
    (M.isExtended = false →
      encodeStandard (m.opc M) (v.setWidth 28) = ((m.opc M).setWidth 32 <<< 28) ||| (v &&& 0x0FFFFFFF) ∧
      decodeWord (encodeStandard (m.opc M) (v.setWidth 28)) =
        { opcode := m.opc M, value := (v &&& 0x0FFFFFFF).setWidth 28, extended := false }) ∧
    (M.isExtended = true →
      encodeExtended (m.opc M) (v.setWidth 28) = ((m.opc M).setWidth 32 <<< 24) ||| (v &&& 0x00FFFFFF) ∧
      decodeWord (encodeExtended (m.opc M) (v.setWidth 28)) =
        { opcode := m.opc M, value := (v &&& 0x00FFFFFF).setWidth 28, extended := true })

/-- R76, R77, R80, R81: for every well-formed opcode map and every well-formed instruction, decoding its encoding gives
the instruction back, with every operand. -/
def Obligations.DecodeEncodeRoundTrip : Prop :=
  ∀ (m : OpcodeMap) (i : Instr), m.wf = true → i.wellFormed = true → decode m (encode m i) = .ok i

/-- R77, R81, R83: what a Word decodes to is well formed and encodes to the Word again; for HLT, NOT and RAR, whose value
field is ignored, up to that field. -/
def Obligations.DecodedWordEncodesBack : Prop :=
  ∀ (m : OpcodeMap) (w : Word) (i : Instr), m.wf = true → decode m w = .ok i →
    i.wellFormed = true ∧
    (i = .hlt ∨ i = .not ∨ i = .rar → encode m i = w &&& 0xFF000000) ∧
    (i ≠ .hlt → i ≠ .not → i ≠ .rar → encode m i = w)

/-- R82: a Word is illegal exactly when its opcode number is no mnemonic's; under the default map, exactly the Words
0xA0000000 to 0xEFFFFFFF and 0xF4000000 to 0xFFFFFFFF. -/
def Obligations.IllegalWordsAreRejected : Prop :=
  (∀ (m : OpcodeMap) (w : Word),
    decode m w = .error (.invalidOpcode (decodeWord w).opcode) ↔ ∀ M, m.opc M ≠ (decodeWord w).opcode) ∧
  (∀ w : Word, decode defaultOpcodes w = .error (.invalidOpcode (decodeWord w).opcode) ↔
    (0xA0000000 ≤ w.toNat ∧ w.toNat ≤ 0xEFFFFFFF) ∨ 0xF4000000 ≤ w.toNat)

/-- One Word of each of the fourteen rows of R80's table, and one illegal Word, under the default map. -/
def Obligations.SampleWordsDecode : Prop :=
  decode defaultOpcodes 0x00000010 = .ok (.and 0x10) ∧ decode defaultOpcodes 0x10000010 = .ok (.or 0x10) ∧
  decode defaultOpcodes 0x20000010 = .ok (.xor 0x10) ∧ decode defaultOpcodes 0x30000010 = .ok (.add 0x10) ∧
  decode defaultOpcodes 0x40000010 = .ok (.ldv 0x10) ∧ decode defaultOpcodes 0x5C000001 = .ok (.stv 0xC000001) ∧
  decode defaultOpcodes 0x60000005 = .ok (.ldc 5) ∧ decode defaultOpcodes 0x7FFFFFFF = .ok (.jmp 0xFFFFFFF) ∧
  decode defaultOpcodes 0x80000006 = .ok (.jmn 6) ∧ decode defaultOpcodes 0x9C000001 = .ok (.eql 0xC000001) ∧
  decode defaultOpcodes 0xF0ABCDEF = .ok .hlt ∧ decode defaultOpcodes 0xF1000000 = .ok .not ∧
  decode defaultOpcodes 0xF2000000 = .ok .rar ∧ decode defaultOpcodes 0xF300001F = .ok (.rrn 31) ∧
  decode defaultOpcodes 0xF4ABCDEF = .error (.invalidOpcode 0xF4)

/-! ### The sequencer (spec/40_sequencer.md) -/

/-- R95: a step is enabled exactly when RUN is true and FAULT is none; a halted and a stopped machine take no step; and
only HLT's phase 12 changes RUN, to false. -/
def Obligations.StepEnabledExactlyWhenRunning : Prop :=
  ∀ s : State,
    ((∃ t, step s = .next t) ↔ s.run = true ∧ s.fault = none) ∧
    (s.run = false → s.fault = none → step s = .fault .halted) ∧
    (∀ c, s.fault = some c → step s = .fault (.faulted c)) ∧
    (∀ t, step s = .next t → t.run ≠ s.run → s.inPhase 12 .hlt ∧ t.run = false)

/-- R101, R107: in an execute phase the step is `exec` of the instruction CI selects, then the end of the phase; and from
an instruction's first phase five steps lead to phase 6 of the instruction its Word decodes to. -/
def Obligations.StepRunsDecodedInstruction : Prop :=
  (∀ (s : State) (p : Nat) (i : Instr), 6 ≤ p → p ≤ 12 → s.inPhase p i → step s = endPhase (exec i s)) ∧
  (∀ (s : State) (w : Word) (i : Instr), s.atInstr w i →
    ∃ t, steps 5 s = .next t ∧ t.inPhase 6 i ∧ step t = endPhase (exec i t))

/-- R96, R100, and phase 2 but for the tag: the transfers of the fetch phases 1, 2 and 5, none of which faults. -/
def Obligations.FetchPhaseTransfers : Prop :=
  ∀ s : State, s.enabled →
    (s.ph = 1 → step s = .next { s with sar := s.iar, x := s.iar, ph := 2 }) ∧
    (s.ph = 2 → ∃ tag, step s = .next { s with y := 1, alu := tag, ph := 3 }) ∧
    (s.ph = 5 → step s = .next { s with ir := s.sir, ph := 6 } ∧
      (s.Inv → ∀ t, step s = .next t → t.ci = decodeWord t.ir))

/-- R98: phase 3. That the sum wraps modulo 2^32 is the spec's decision D17 (notes/assumptions/17.md). -/
def Obligations.FetchAddsModulo : Prop :=
  ∀ s : State, s.enabled → s.ph = 3 →
    step s = .next { s with z := BitVec.ofNat 32 ((s.x.toNat + s.y.toNat) % 2 ^ 32), ph := 4 }

/-- R99: phase 4, with the fault of a fetch from the I/O region and from the hole, the spec's decisions D11 and D10
(notes/assumptions/10.md). -/
def Obligations.FetchReadsAtSar : Prop :=
  ∀ s : State, s.enabled → s.ph = 4 →
    (s.sar.toNat < s.cfg.memWords →
      step s = .next { s with iar := s.z, ci := decodeWord (s.mem.read s.sar.toNat), sir := s.mem.read s.sar.toNat,
                              ph := 5 }) ∧
    (s.cfg.memWords ≤ s.sar.toNat → s.cfg.ioBoundary.toNat ≤ s.sar.toNat →
      step s = .next { s with fault := some (.uReadIo s.sar) }) ∧
    (s.cfg.memWords ≤ s.sar.toNat → s.sar.toNat < s.cfg.ioBoundary.toNat →
      step s = .next { s with fault := some (.uOobRead s.sar) })

/-- R106 but for the tag: the net effect of phases 1 to 5. -/
def Obligations.FetchNetEffect : Prop :=
  ∀ (s : State) (w : Word), s.atWord w →
    ∃ tag, steps 5 s = .next { s with sar := s.iar, x := s.iar, y := 1, z := s.iar + 1, iar := s.iar + 1, sir := w,
                                      ir := w, ci := decodeWord w, alu := tag, ph := 6 }

/-- The model's withFetchWord (notes/assumptions/5.md) is what five steps make of the Word put at IAR. -/
def Obligations.WithFetchWordIsTheFetch : Prop :=
  ∀ (s : State) (w : Word), s.enabled → s.ph = 1 → isStorage s.cfg s.iar = true →
    ∃ tag, steps 5 (s.placeWord w) = .next { s.withFetchWord 32 w.toNat with alu := tag }

/-- R106, R181 (a): the fetch overwrites SAR, SIR, X, Y, Z, IR, CI and the tag: none of their old values survives it. -/
def Obligations.FetchClobbersScratchRegisters : Prop :=
  ∀ (s : State) (w : Word) (sar sir x y z ir : Word) (ci : Decoded) (alu : AluTag), s.atWord w →
    steps 5 { s with sar := sar, sir := sir, x := x, y := y, z := z, ir := ir, ci := ci, alu := alu } = steps 5 s

/-- R103: after every phase that raises no fault PH is its successor, 1 after 12; after a HLT the machine rests with
RUN = false and PH = 1. -/
def Obligations.CounterAdvancesAndWraps : Prop :=
  (∀ s t : State, step s = .next t → t.fault = none → t.ph = if s.ph = 12 then 1 else s.ph + 1) ∧
  (∀ s : State, s.inPhase 12 .hlt → ∃ t, step s = .next t ∧ t.run = false ∧ t.ph = 1)

/-- R104, R150: a step that raises a fault changes FAULT and nothing else (the spec's decision D9), and no step is taken
after it. That the raising step answers a next state is the model's choice (notes/assumptions/8.md). -/
def Obligations.FaultCommitsNothing : Prop :=
  ∀ (s t : State) (c : FaultCause), step s = .next t → t.fault = some c →
    t = { s with fault := some c } ∧ step t = .fault (.faulted c)

/-- R151, R152, R153, R158: which fault a step can raise, in which phase, with which information; in a state reached from
creation the opcode fault is raised in phase 6 only. The spec's own decisions: D8 (notes/assumptions/16.md), D10 and D11
(notes/assumptions/10.md), D12 (notes/assumptions/13.md). -/
def Obligations.FaultsByPhase : Prop :=
  ∀ (s t : State), step s = .next t →
    (∀ p, t.fault = some (.fPhaseRange p) → p = s.ph ∧ (p < 1 ∨ 12 < p)) ∧
    (∀ o, t.fault = some (.fInvalidOpcode o) →
      o = s.ci.opcode ∧ (∀ M, s.cfg.opcodes.opc M ≠ o) ∧ 6 ≤ s.ph ∧ s.ph ≤ 12 ∧ (s.Inv → s.ph = 6)) ∧
    (∀ a, t.fault = some (.uReadIo a) →
      a = s.sar ∧ s.cfg.memWords ≤ a.toNat ∧ s.cfg.ioBoundary.toNat ≤ a.toNat ∧
        (s.ph = 4 ∨ ∃ v, s.inPhase 9 (.ldv v) ∨ ∃ i op, aluMeaning i = some (v, op) ∧ s.inPhase 9 i)) ∧
    (∀ a, t.fault = some (.uOobRead a) →
      a = s.sar ∧ s.cfg.memWords ≤ a.toNat ∧ a.toNat < s.cfg.ioBoundary.toNat ∧
        (s.ph = 4 ∨ ∃ v, s.inPhase 9 (.ldv v) ∨ ∃ i op, aluMeaning i = some (v, op) ∧ s.inPhase 9 i)) ∧
    (∀ a, t.fault = some (.uOobWrite a) →
      s.cfg.memWords ≤ a.toNat ∧ a.toNat < s.cfg.ioBoundary.toNat ∧ ∃ v, s.inPhase 7 (.stv v) ∧ a = v.setWidth 32)

/-- R109: from phase 1 of any instruction, whatever its opcode and operands, k steps lead to phase k + 1 and twelve to
phase 1 again, unless one of them raises a fault; a k-th step that does leaves phase k, and no step follows it. -/
def Obligations.TwelvePhasesPerInstruction : Prop :=
  ∀ (k : Nat) (s : State), s.enabled → s.ph = 1 → k ≤ 12 →
    ((∃ t, steps k s = .next t) ∨ ∃ j t, j < k ∧ steps j s = .next t ∧ t.fault ≠ none) ∧
    (∀ t, steps k s = .next t → t.fault = none → t.ph = if k = 12 then 1 else k + 1) ∧
    (∀ t, steps k s = .next t → t.fault ≠ none → t.ph = k ∧ ∀ u, step t ≠ .next u)

/-- R82, R101, R151: a Word with an illegal opcode is fetched normally and faults in phase 6, the spec's decision D8
(notes/assumptions/16.md). -/
def Obligations.IllegalOpcodeFaultsInPhaseSix : Prop :=
  ∀ (s : State) (w : Word), s.atWord w → (∀ M, s.cfg.opcodes.opc M ≠ (decodeWord w).opcode) →
    (∃ tag, steps 6 s =
      .next { s.afterFetch w with alu := tag, fault := some (.fInvalidOpcode (decodeWord w).opcode) }) ∧
    steps 7 s = .fault (.faulted (.fInvalidOpcode (decodeWord w).opcode))

/-- R57, R62, R99: a fetch outside storage faults in phase 4, with IAR not yet incremented. The faults are the spec's
decisions D10 and D11 (notes/assumptions/10.md). -/
def Obligations.FetchOutsideStorageFaults : Prop :=
  ∀ s : State, s.enabled → s.ph = 1 → s.cfg.memWords ≤ s.iar.toNat →
    ∃ tag, steps 4 s =
      .next { s with sar := s.iar, x := s.iar, y := 1, z := s.iar + 1, alu := tag, ph := 4,
                     fault := some (readFault s.cfg s.iar) }

/-- R152: a counter outside 1 to 12 faults before anything else, and no state reached from creation has one. -/
def Obligations.PhaseRangeFault : Prop :=
  (∀ s : State, s.enabled → s.ph < 1 ∨ 12 < s.ph → step s = .next { s with fault := some (.fPhaseRange s.ph) }) ∧
  (∀ (s t : State) (p : Nat), s.Inv → step s = .next t → t.fault ≠ some (.fPhaseRange p))

/-! ### Memory (spec/20_memory.md) -/

/-- R55: the three regions of a read; its two faults are the spec's decisions D10 and D11 (notes/assumptions/10.md). -/
def Obligations.MemReadByRegion : Prop :=
  ∀ (s : State) (a : Word),
    (a.toNat < s.cfg.memWords → s.memRead a = .ok (s.mem.read a.toNat)) ∧
    (s.cfg.memWords ≤ a.toNat → s.cfg.ioBoundary.toNat ≤ a.toNat → s.memRead a = .error (.uReadIo a)) ∧
    (s.cfg.memWords ≤ a.toNat → a.toNat < s.cfg.ioBoundary.toNat → s.memRead a = .error (.uOobRead a))

/-- R56: the five cases of a write, which cell it changes and that every later read sees it. The hole's fault is the
spec's decision D10 (notes/assumptions/10.md), DIAG its decision D19 (notes/assumptions/21.md). -/
def Obligations.MemWriteByRegion : Prop :=
  ∀ (s : State) (a v : Word),
    (a.toNat < s.cfg.memWords →
      ∃ t, s.memWrite a v = .ok t ∧ t = { s with mem := t.mem } ∧ t.memRead a = .ok v ∧
        ∀ b, b ≠ a.toNat → t.mem.read b = s.mem.read b) ∧
    (s.cfg.memWords ≤ a.toNat →
      (a.toNat < s.cfg.ioBoundary.toNat → s.memWrite a v = .error (.uOobWrite a)) ∧
      (s.cfg.ioBoundary.toNat ≤ a.toNat →
        (a = s.cfg.ioCharPort → s.memWrite a v = .ok { s with out := s.out ++ [.char (v.extractLsb' 0 8)] }) ∧
        (a ≠ s.cfg.ioCharPort → a = s.cfg.ioIntPort →
          s.memWrite a v = .ok { s with out := s.out ++
            [.int (if v.getLsbD 31 then (v.toNat : Int) - 2 ^ 32 else (v.toNat : Int))] }) ∧
        (a ≠ s.cfg.ioCharPort → a ≠ s.cfg.ioIntPort → s.memWrite a v = .ok { s with diag := s.diag ++ [a] })))

/-- R70: an STV may overwrite the very next instruction, and the new Word is the one fetched. -/
def Obligations.StoredWordIsFetchedNext : Prop :=
  ∀ (s : State) (w : Word) (a : BitVec 28), s.atInstr w (.stv a) → isStorage s.cfg (a.setWidth 32) = true →
    a.setWidth 32 = s.iar + 1 →
    ∃ t u, steps 12 s = .next t ∧ t.atWord s.acc ∧ steps 5 t = .next u ∧ u.ir = s.acc ∧ u.ci = decodeWord s.acc

/-! ### The handlers, phase by phase -/

/-- R115 to R120 (but for the tag): the handler of AND, OR, XOR, ADD and EQL in each of its phases. That phase 9 faults
outside storage is the spec's decisions D10 and D11 (notes/assumptions/10.md). -/
def Obligations.AluGroupPhases : Prop :=
  ∀ (i : Instr) (a : BitVec 28) (op : Word → Word → Word) (s : State), aluMeaning i = some (a, op) →
    (s.ph = 6 → exec i s = .next { s with sar := a.setWidth 32 }) ∧
    (s.ph = 7 → exec i s = .next { s with x := s.acc }) ∧
    (s.ph = 8 → exec i s = .next s) ∧
    (s.ph = 9 → s.sar.toNat < s.cfg.memWords → exec i s = .next { s with sir := s.mem.read s.sar.toNat }) ∧
    (s.ph = 9 → s.cfg.memWords ≤ s.sar.toNat → exec i s = .next { s with fault := some (readFault s.cfg s.sar) }) ∧
    (s.ph = 10 → ∃ tag, exec i s = .next { s with y := s.sir, alu := tag }) ∧
    (s.ph = 11 → exec i s = .next { s with z := op s.x s.y }) ∧
    (s.ph = 12 → exec i s = .next { s with acc := s.z })

/-- R125: LDV in each of its phases. That phase 9 faults outside storage is the spec's decisions D10 and D11
(notes/assumptions/10.md). -/
def Obligations.LdvPhases : Prop :=
  ∀ (a : BitVec 28) (s : State),
    (s.ph = 6 → exec (.ldv a) s = .next { s with sar := a.setWidth 32 }) ∧
    (s.ph = 9 → s.sar.toNat < s.cfg.memWords → exec (.ldv a) s = .next { s with sir := s.mem.read s.sar.toNat }) ∧
    (s.ph = 9 → s.cfg.memWords ≤ s.sar.toNat →
      exec (.ldv a) s = .next { s with fault := some (readFault s.cfg s.sar) }) ∧
    (s.ph = 10 → exec (.ldv a) s = .next { s with acc := s.sir }) ∧
    (s.ph = 7 ∨ s.ph = 8 ∨ s.ph = 11 ∨ s.ph = 12 → exec (.ldv a) s = .next s)

/-- R126: STV in each of its phases: the latch of ACC, then in phase 7 SAR and the store through it, to storage, to a
port, discarded, or faulting with nothing committed. The spec's own decisions: the phase of the store, D12
(notes/assumptions/13.md); the hole's fault, D10 (notes/assumptions/10.md); DIAG, D19 (notes/assumptions/21.md). -/
def Obligations.StvPhases : Prop :=
  ∀ (a : BitVec 28) (s : State),
    (s.ph = 6 → exec (.stv a) s = .next { s with sir := s.acc }) ∧
    (s.ph = 7 → (a.setWidth 32).toNat < s.cfg.memWords →
      exec (.stv a) s =
        .next { s with sar := a.setWidth 32, mem := s.mem.write (a.setWidth 32).toNat s.sir }) ∧
    (s.ph = 7 → s.cfg.memWords ≤ (a.setWidth 32).toNat → (a.setWidth 32).toNat < s.cfg.ioBoundary.toNat →
      exec (.stv a) s = .next { s with fault := some (.uOobWrite (a.setWidth 32)) }) ∧
    (s.ph = 7 → s.cfg.memWords ≤ (a.setWidth 32).toNat → s.cfg.ioBoundary.toNat ≤ (a.setWidth 32).toNat →
      (a.setWidth 32 = s.cfg.ioCharPort →
        exec (.stv a) s =
          .next { s with sar := a.setWidth 32, out := s.out ++ [.char (s.sir.extractLsb' 0 8)] }) ∧
      (a.setWidth 32 ≠ s.cfg.ioCharPort → a.setWidth 32 = s.cfg.ioIntPort →
        exec (.stv a) s = .next { s with sar := a.setWidth 32, out := s.out ++ [.int s.sir.toInt] }) ∧
      (a.setWidth 32 ≠ s.cfg.ioCharPort → a.setWidth 32 ≠ s.cfg.ioIntPort →
        exec (.stv a) s = .next { s with sar := a.setWidth 32, diag := s.diag ++ [a.setWidth 32] })) ∧
    (8 ≤ s.ph → s.ph ≤ 12 → exec (.stv a) s = .next s)

/-- What STV's phase 7 does at a port: one event, of SIR's low byte or of SIR as a signed number, memory unchanged, and
the bytes the console receives. The spec's own decisions: the phase of the store, D12 (notes/assumptions/13.md); the
rendering (the minus sign's byte, no plus sign, no padding, the raw byte), D18 (notes/assumptions/19.md). -/
def Obligations.PortStoresEmitOneEvent : Prop :=
  ∀ (a : BitVec 28) (s : State), s.ph = 7 → s.cfg.memWords ≤ (a.setWidth 32).toNat →
    s.cfg.ioBoundary.toNat ≤ (a.setWidth 32).toNat →
    (a.setWidth 32 = s.cfg.ioCharPort → ∃ t, exec (.stv a) s = .next t ∧
      t = { s with sar := a.setWidth 32, out := s.out ++ [.char (s.sir.extractLsb' 0 8)] } ∧
      t.console = s.console ++ s.sir.extractLsb' 0 8 :: s.cfg.lineTerminator) ∧
    (a.setWidth 32 ≠ s.cfg.ioCharPort → a.setWidth 32 = s.cfg.ioIntPort → ∃ t, exec (.stv a) s = .next t ∧
      t = { s with sar := a.setWidth 32, out := s.out ++ [.int s.sir.toInt] } ∧
      t.console = s.console ++ (if s.sir.toInt < 0 then 0x2D :: decimal s.sir.toInt.natAbs
        else decimal s.sir.toInt.natAbs) ++ s.cfg.lineTerminator) ∧
    (s.sir = 0xFFFFFFFF → s.sir.toInt = -1) ∧ (s.sir = 0x80000000 → s.sir.toInt = -2147483648)

/-- R127, R130, R131, R145: LDC, JMP, JMN and HLT in each of their phases. -/
def Obligations.LdcJmpJmnHltPhases : Prop :=
  ∀ (v : BitVec 28) (s : State),
    (s.ph = 6 → exec (.ldc v) s = .next { s with acc := v.setWidth 32 }) ∧
    (7 ≤ s.ph → s.ph ≤ 12 → exec (.ldc v) s = .next s) ∧
    (s.ph = 6 → exec (.jmp v) s = .next { s with iar := v.setWidth 32 }) ∧
    (7 ≤ s.ph → s.ph ≤ 12 → exec (.jmp v) s = .next s) ∧
    (s.ph = 6 → s.acc.toInt < 0 → exec (.jmn v) s = .next { s with iar := v.setWidth 32 }) ∧
    (s.ph = 6 → 0 ≤ s.acc.toInt → exec (.jmn v) s = .next s) ∧
    (7 ≤ s.ph → s.ph ≤ 12 → exec (.jmn v) s = .next s) ∧
    (6 ≤ s.ph → s.ph ≤ 11 → exec .hlt s = .next s) ∧
    (s.ph = 12 → exec .hlt s = .next { s with run := false })

/-- R136 to R139 (but for the tag): NOT, RAR and RRN in each of their phases; a rotate by more than 32 writes a free value
into Z and completes. The free value is the model's choice (notes/assumptions/2.md), and that a RAR whose Y is above 32,
which no run reaches, draws one as RRN does is another (notes/assumptions/18.md): R139 speaks of RRN alone. -/
def Obligations.NotRarRrnPhases : Prop :=
  (∀ (i : Instr) (s : State), i = .not ∨ (∃ k, rotateMeaning i = some k) →
    (s.ph = 6 ∨ s.ph = 8 ∨ s.ph = 9 → exec i s = .next s) ∧
    (s.ph = 7 → exec i s = .next { s with x := s.acc }) ∧
    (s.ph = 12 → exec i s = .next { s with acc := s.z })) ∧
  (∀ s : State,
    (s.ph = 10 → ∃ tag, exec .not s = .next { s with alu := tag }) ∧
    (s.ph = 11 → exec .not s = .next { s with z := ~~~s.x })) ∧
  (∀ (i : Instr) (k : Word) (s : State), rotateMeaning i = some k →
    (s.ph = 10 → ∃ tag, exec i s = .next { s with y := k, alu := tag }) ∧
    (s.ph = 11 → s.y.toNat ≤ 32 → exec i s = .next { s with z := s.x.rotateRight s.y.toNat }) ∧
    (s.ph = 11 → 32 < s.y.toNat →
      ∃ v, exec i s = .next { s with z := v, rotDraws := s.rotDraws + 1 }))

/-! ### The net effect of each instruction over its twelve phases -/

/-- R121 (but for the tag), R116 to R120: the net effect of AND, OR, XOR, ADD and EQL. -/
def Obligations.AluGroupNetEffect : Prop :=
  ∀ (s : State) (w : Word) (i : Instr) (a : BitVec 28) (op : Word → Word → Word), s.atInstr w i →
    aluMeaning i = some (a, op) → (a.setWidth 32).toNat < s.cfg.memWords →
    ∃ tag, steps 12 s =
      .next { s.afterFetch w with
        acc := op s.acc (s.mem.read (a.setWidth 32).toNat)
        sar := a.setWidth 32
        sir := s.mem.read (a.setWidth 32).toNat
        x := s.acc
        y := s.mem.read (a.setWidth 32).toNat
        z := op s.acc (s.mem.read (a.setWidth 32).toNat)
        alu := tag
        ph := 1 }

/-- R125 (but for the tag): the net effect of LDV. -/
def Obligations.LdvNetEffect : Prop :=
  ∀ (s : State) (w : Word) (a : BitVec 28), s.atInstr w (.ldv a) → (a.setWidth 32).toNat < s.cfg.memWords →
    ∃ tag, steps 12 s =
      .next { s.afterFetch w with
        acc := s.mem.read (a.setWidth 32).toNat
        sar := a.setWidth 32
        sir := s.mem.read (a.setWidth 32).toNat
        alu := tag
        ph := 1 }

/-- R57, R62, R115, R125: an operand read outside storage faults in phase 9, with ACC unchanged. The faults are the spec's
decisions D10 and D11 (notes/assumptions/10.md). -/
def Obligations.OperandReadOutsideStorageFaults : Prop :=
  ∀ (s : State) (w : Word) (i : Instr) (a : BitVec 28), s.atInstr w i →
    s.cfg.memWords ≤ (a.setWidth 32).toNat →
    (i = .ldv a → ∃ tag, steps 9 s =
      .next { s.afterFetch w with sar := a.setWidth 32, alu := tag, ph := 9,
                                  fault := some (readFault s.cfg (a.setWidth 32)) }) ∧
    (∀ op, aluMeaning i = some (a, op) → ∃ tag, steps 9 s =
      .next { s.afterFetch w with sar := a.setWidth 32, x := s.acc, alu := tag, ph := 9,
                                  fault := some (readFault s.cfg (a.setWidth 32)) })

/-- R126, R56 (but for the tag): the net effect of STV to storage: the one cell addressed, every other as before. -/
def Obligations.StvToStorageNetEffect : Prop :=
  ∀ (s : State) (w : Word) (a : BitVec 28), s.atInstr w (.stv a) → (a.setWidth 32).toNat < s.cfg.memWords →
    ∃ tag mem, steps 12 s =
        .next { s.afterFetch w with sir := s.acc, sar := a.setWidth 32, mem := mem, alu := tag, ph := 1 } ∧
      mem.read (a.setWidth 32).toNat = s.acc ∧ ∀ b, b ≠ (a.setWidth 32).toNat → mem.read b = s.mem.read b

/-- R56, R58, R59, R60, R126 (but for the tag): the net effect of STV to the two ports and to any other I/O address. DIAG
is the spec's decision D19 (notes/assumptions/21.md). -/
def Obligations.StvToIoNetEffect : Prop :=
  ∀ (s : State) (w : Word) (a : BitVec 28), s.atInstr w (.stv a) → s.cfg.memWords ≤ (a.setWidth 32).toNat →
    s.cfg.ioBoundary.toNat ≤ (a.setWidth 32).toNat →
    ∃ tag out diag, steps 12 s =
        .next { s.afterFetch w with sir := s.acc, sar := a.setWidth 32, out := out, diag := diag, alu := tag, ph := 1 } ∧
      (a.setWidth 32 = s.cfg.ioCharPort → out = s.out ++ [.char (s.acc.extractLsb' 0 8)] ∧ diag = s.diag) ∧
      (a.setWidth 32 ≠ s.cfg.ioCharPort → a.setWidth 32 = s.cfg.ioIntPort →
        out = s.out ++ [.int s.acc.toInt] ∧ diag = s.diag) ∧
      (a.setWidth 32 ≠ s.cfg.ioCharPort → a.setWidth 32 ≠ s.cfg.ioIntPort →
        out = s.out ∧ diag = s.diag ++ [a.setWidth 32])

/-- R62, R126: STV to the hole faults in phase 7: SIR is ACC from phase 6, SAR still holds the fetch address. The fault is
the spec's decision D10 (notes/assumptions/10.md), its phase D12 (notes/assumptions/13.md). -/
def Obligations.StvToHoleFaults : Prop :=
  ∀ (s : State) (w : Word) (a : BitVec 28), s.atInstr w (.stv a) → s.cfg.memWords ≤ (a.setWidth 32).toNat →
    (a.setWidth 32).toNat < s.cfg.ioBoundary.toNat →
    ∃ tag, steps 7 s =
      .next { s.afterFetch w with sir := s.acc, alu := tag, ph := 7, fault := some (.uOobWrite (a.setWidth 32)) }

/-- R127 (but for the tag): the net effect of LDC; ACC is then never negative. -/
def Obligations.LdcNetEffect : Prop :=
  ∀ (s : State) (w : Word) (c : BitVec 28), s.atInstr w (.ldc c) →
    (∃ tag, steps 12 s = .next { s.afterFetch w with acc := c.setWidth 32, alu := tag, ph := 1 }) ∧
    (∀ t, steps 12 s = .next t → t.acc.toNat = c.toNat ∧ 0 ≤ t.acc.toInt)

/-- R130, R131 (but for the tag): the net effect of JMP and of JMN, taken exactly when ACC is negative as a signed
number. -/
def Obligations.JumpNetEffect : Prop :=
  (∀ (s : State) (w : Word) (d : BitVec 28), s.atInstr w (.jmp d) →
    ∃ tag, steps 12 s = .next { s.afterFetch w with iar := d.setWidth 32, alu := tag, ph := 1 }) ∧
  (∀ (s : State) (w : Word) (d : BitVec 28), s.atInstr w (.jmn d) →
    ∃ tag, steps 12 s =
      .next { s.afterFetch w with
        iar := if s.acc.toInt < 0 then d.setWidth 32 else s.iar + 1
        alu := tag
        ph := 1 })

/-- R136 (but for the tag): the net effect of NOT, which leaves Y at 1 from the fetch. -/
def Obligations.NotNetEffect : Prop :=
  ∀ (s : State) (w : Word), s.atInstr w .not →
    ∃ tag, steps 12 s = .next { s.afterFetch w with acc := ~~~s.acc, x := s.acc, z := ~~~s.acc, alu := tag, ph := 1 }

/-- R137, R138 (but for the tag): the net effect of RAR and of RRN by at most 32. -/
def Obligations.RotateNetEffect : Prop :=
  ∀ (s : State) (w : Word) (i : Instr) (k : Word), s.atInstr w i → rotateMeaning i = some k → k.toNat ≤ 32 →
    ∃ tag, steps 12 s =
      .next { s.afterFetch w with
        acc := s.acc.rotateRight k.toNat
        x := s.acc
        y := k
        z := s.acc.rotateRight k.toNat
        alu := tag
        ph := 1 }

/-- R139: RRN by more than 32 completes like any other, with Y = n and ACC = Z some value nothing is said of. -/
def Obligations.RotateOver32Completes : Prop :=
  ∀ (s : State) (w : Word) (n : BitVec 28), s.atInstr w (.rrn n) → 32 < n.toNat →
    ∃ tag v, steps 12 s =
      .next { s.afterFetch w with acc := v, x := s.acc, y := n.setWidth 32, z := v, alu := tag, ph := 1,
                                  rotDraws := s.rotDraws + 1 }

/-- R110, R145 (but for the tag): all twelve phases of a HLT run with RUN true; then RUN is false, IAR is the address of
the HLT plus 1, and no step is taken: nothing is fetched. -/
def Obligations.HltNetEffect : Prop :=
  ∀ (s : State) (w : Word), s.atInstr w .hlt →
    (∃ tag, steps 12 s = .next { s.afterFetch w with run := false, alu := tag, ph := 1 }) ∧
    (∀ k, k < 12 → ∃ t, steps k s = .next t ∧ t.run = true) ∧
    (∀ k, 12 < k → steps k s = .fault .halted)

/-! ### Whole-machine rules -/

/-- Every instruction answers a next state in every state: no meaning faults or refuses. -/
def Obligations.ExecAlwaysAnswersNext : Prop :=
  ∀ (i : Instr) (s : State), ∃ t, exec i s = .next t

/-- The frame of each handler over the registers (R39): what instruction i cannot change, in any phase. -/
def Obligations.RegisterFrame : Prop :=
  ∀ (i : Instr) (s t : State), exec i s = .next t →
    t.ir = s.ir ∧ t.ci = s.ci ∧ t.ph = s.ph ∧ t.cfg = s.cfg ∧
    (i ≠ .hlt → t.run = s.run) ∧
    ((∀ d, i ≠ .jmp d) → (∀ d, i ≠ .jmn d) → t.iar = s.iar) ∧
    (i = .hlt ∨ (∃ v, i = .stv v ∨ i = .jmp v ∨ i = .jmn v) → t.acc = s.acc) ∧
    (i = .hlt ∨ (∃ v, i = .ldv v ∨ i = .stv v ∨ i = .ldc v ∨ i = .jmp v ∨ i = .jmn v) →
      t.x = s.x ∧ t.y = s.y ∧ t.z = s.z ∧ t.alu = s.alu) ∧
    (i = .not → t.y = s.y) ∧
    (i = .hlt ∨ i = .not ∨ i = .rar ∨ (∃ v, i = .rrn v ∨ i = .ldc v ∨ i = .jmp v ∨ i = .jmn v) →
      t.sar = s.sar ∧ t.sir = s.sir ∧ t.fault = s.fault) ∧
    ((∀ n, i ≠ .rrn n) → i ≠ .rar → t.rotDraws = s.rotDraws) ∧
    ((∀ a, i ≠ .stv a) → t.out = s.out ∧ t.diag = s.diag)

/-- R52, R56: the frame of each handler over memory: every cell but the one STV's phase 7 stores to reads as before. The
phase of the store is the spec's decision D12 (notes/assumptions/13.md). -/
def Obligations.MemoryFrame : Prop :=
  ∀ (i : Instr) (s t : State), exec i s = .next t →
    ((∀ a, i ≠ .stv a) → t.mem = s.mem) ∧
    (∀ a b, i = .stv a → b ≠ (operandWord a).toNat → t.mem.read b = s.mem.read b) ∧
    (∀ a b, i = .stv a → s.ph ≠ 7 → t.mem.read b = s.mem.read b)

/-- The invariant (R25, R34, R36, R40 (a), (e), (g), R102, R181): every step from every state that meets it keeps it. -/
def Obligations.StepKeepsInvariant : Prop :=
  ∀ s t : State, s.Inv → step s = .next t → t.Inv

/-- R41: the state at creation meets the invariant, under all parameters, and the default reset state with it. -/
def Obligations.CreationMeetsInvariant : Prop :=
  (∀ c : Config, (State.create c).Inv) ∧ State.reset.Inv

/-- R40 (e): once CI is the decoding of IR in every phase but 5 (of SIR in phase 5), it stays so; the default reset state
meets this. -/
def Obligations.CiStaysDecodingOfIr : Prop :=
  (∀ s t : State, s.CiMatchesIr → step s = .next t → t.CiMatchesIr) ∧ State.reset.CiMatchesIr

/-- R41, R175 but for RESET_REGS' own values: what creation leaves in the state. -/
def Obligations.CreationState : Prop :=
  ∀ c : Config, (∀ a, (State.create c).mem.read a = 0) ∧ (State.create c).run = true ∧ (State.create c).one = 1 ∧
    (State.create c).ph = 1 ∧ (State.create c).iar = 0 ∧ (State.create c).fault = none ∧
    (State.create c).out = [] ∧ (State.create c).diag = [] ∧ (State.create c).acc = c.resetRegs.acc

/-- R22, R38: only phase 4 and a JMP or a taken JMN in phase 6 change IAR, the jumps to their target. -/
def Obligations.OnlyFetchAndJumpsWriteIar : Prop :=
  ∀ s t : State, step s = .next t → t.iar ≠ s.iar →
    s.ph = 4 ∨ ∃ d : BitVec 28, t.iar = d.setWidth 32 ∧
      (s.inPhase 6 (.jmp d) ∨ s.inPhase 6 (.jmn d) ∧ s.acc.toInt < 0)

/-- R21: only LDC in phase 6, LDV in phase 10 and the ALU group, NOT, RAR and RRN in phase 12 change ACC, and from what. -/
def Obligations.AccumulatorWriters : Prop :=
  ∀ s t : State, step s = .next t → t.acc ≠ s.acc →
    (∃ c : BitVec 28, s.inPhase 6 (.ldc c) ∧ t.acc = c.setWidth 32) ∨
    (∃ a, s.inPhase 10 (.ldv a) ∧ t.acc = s.sir) ∨
    (∃ i, s.inPhase 12 i ∧ t.acc = s.z ∧
      (i = .not ∨ (∃ a op, aluMeaning i = some (a, op)) ∨ ∃ k, rotateMeaning i = some k))

/-- R36, R52, R56: only STV's phase 7 changes memory, and only the one storage cell it addresses. The phase of the store
is the spec's decision D12 (notes/assumptions/13.md). -/
def Obligations.OnlyStvWritesMemory : Prop :=
  ∀ s t : State, step s = .next t → t.mem ≠ s.mem →
    ∃ a : BitVec 28, s.inPhase 7 (.stv a) ∧ isStorage s.cfg (a.setWidth 32) = true ∧
      ∀ b, t.mem.read b = if b = (a.setWidth 32).toNat then s.sir else s.mem.read b

/-- R34, R40 (f), R65: OUT and DIAG only grow, by at most one entry a step, and only in STV's phase 7. The phase of the
store is the spec's decision D12 (notes/assumptions/13.md), DIAG its decision D19 (notes/assumptions/21.md). -/
def Obligations.OutAndDiagOnlyGrow : Prop :=
  ∀ s t : State, step s = .next t →
    ∃ events addrs, t.out = s.out ++ events ∧ t.diag = s.diag ++ addrs ∧ events.length + addrs.length ≤ 1 ∧
      (events ≠ [] ∨ addrs ≠ [] → ∃ a, s.inPhase 7 (.stv a))

/-- R43, R139, R186: no step changes the parameters, and the only step that draws a free value is a rotate whose Y is
above 32. The model's choices: the parameters in the state (notes/assumptions/1.md), the count of draws
(notes/assumptions/2.md), a draw by RAR too (notes/assumptions/18.md). -/
def Obligations.ParametersFixedAndDrawsOnlyByRotates : Prop :=
  ∀ s t : State, step s = .next t →
    t.cfg = s.cfg ∧
    (t.rotDraws ≠ s.rotDraws →
      t.rotDraws = s.rotDraws + 1 ∧ 32 < s.y.toNat ∧ ∃ i k, s.inPhase 11 i ∧ rotateMeaning i = some k)

/-- R33: no transfer reads the ALU tag: runs of states that differ in it alone differ in it alone. -/
def Obligations.AluTagIsNeverRead : Prop :=
  ∀ (k : Nat) (s : State) (tag : AluTag), sameOutcomeButTag (steps k s) (steps k { s with alu := tag })

/-! ### The rotate, the console and the host's side -/

/-- R135: the rotate's formula, its bits, its laws and its two examples. -/
def Obligations.RotateLaws : Prop :=
  (∀ (v : Word) (k : Nat), k ≤ 32 → rotr v k = (v >>> k) ||| (v <<< (32 - k))) ∧
  (∀ (v : Word) (k i : Nat), k ≤ 32 → i < 32 → (rotr v k).getLsbD i = v.getLsbD ((i + k) % 32)) ∧
  (∀ v : Word, rotr v 0 = v ∧ rotr v 32 = v) ∧
  (∀ (v : Word) (k : Nat), k ≤ 32 → rotr (rotr v k) (32 - k) = v) ∧
  (∀ (v : Word) (j k : Nat), j + k ≤ 32 → rotr (rotr v j) k = rotr v (j + k)) ∧
  (∀ k, k ≤ 32 → rotr 0 k = 0 ∧ rotr 0xFFFFFFFF k = 0xFFFFFFFF) ∧
  rotr 0x12345678 4 = 0x81234567 ∧ rotr 0x00000001 1 = 0x80000000

/-- R61: the bytes of OUT: a character's byte, a number's decimal digits without leading zeros and with a minus sign only
where negative, each followed by the terminator, in order. The rendering is the spec's decision D18
(notes/assumptions/19.md). -/
def Obligations.ConsoleRendering : Prop :=
  (∀ n : Nat, digitsValue (decimal n) = n ∧ (∀ d ∈ decimal n, 0x30 ≤ d.toNat ∧ d.toNat ≤ 0x39) ∧
    (n = 0 → decimal n = [0x30]) ∧ (n ≠ 0 → ∀ d, (decimal n).head? = some d → d ≠ 0x30)) ∧
  (∀ n : Int, n < 0 → OutEvent.bytes (.int n) = 0x2D :: decimal n.natAbs) ∧
  (∀ n : Int, 0 ≤ n → OutEvent.bytes (.int n) = decimal n.natAbs) ∧
  (∀ (term : List Byte) (b : Byte), renderOut term [.char b] = b :: term) ∧
  (∀ (term : List Byte) (n : Int), renderOut term [.int n] = OutEvent.bytes (.int n) ++ term) ∧
  (∀ (term : List Byte) (xs ys : List OutEvent), renderOut term (xs ++ ys) = renderOut term xs ++ renderOut term ys)

/-- R9, R175, R177: the host's load is accepted exactly under legal parameters and inside storage; it leaves the last Word
written to each address, 0 elsewhere, the run flag it chose, and the state of creation otherwise. -/
def Obligations.BootLoadsTheImage : Prop :=
  ∀ (c : Config) (image : List (Nat × Word)) (flag : Bool),
    ((∃ s, State.boot c image flag = .ok s) ↔ c.wf = true ∧ ∀ p ∈ image, p.1 < c.memWords) ∧
    (∀ s, State.boot c image flag = .ok s →
      s = { State.create c with mem := s.mem, run := flag } ∧ (∀ a, s.mem.read a = lastLoaded image a) ∧ s.Inv)

/-- R166: the snapshot of a window of memory, clamped to MEM_WORDS, and that the register snapshot shows the registers. -/
def Obligations.SnapshotsShowTheState : Prop :=
  (∀ (s : State) (start count : Nat),
    (s.snapshotMemory start count).length = min (start + count) s.cfg.memWords - start ∧
    (s.cfg.memWords ≤ start → s.snapshotMemory start count = []) ∧
    (∀ k, start + k < min (start + count) s.cfg.memWords →
      (s.snapshotMemory start count)[k]? = some (s.mem.read (start + k)))) ∧
  (∀ s : State, s.snapshotRegisters =
    { ir := s.ir, iar := s.iar, run := s.run, ph := s.ph, sar := s.sar, sir := s.sir, acc := s.acc, x := s.x, y := s.y,
      z := s.z, one := 1, alu := s.alu })

/-- R105: a run that halts ends with RUN = false, FAULT = none and PH = 1; one that faults ends with FAULT set and RUN
true; one that does neither is still enabled; each after a number of steps the loop was allowed; and none is refused. -/
def Obligations.RunLoopEndsAsSpecified : Prop :=
  ∀ (n : Nat) (s : State), (s.run = false → s.ph = 1) → s.fault = none →
    (∀ t, runLoop n s = .halted t → t.haltedNormally ∧ ∃ k, k ≤ n ∧ steps k s = .next t) ∧
    (∀ c t, runLoop n s = .faulted c t → t.fault = some c ∧ t.run = true ∧ ∃ k, k ≤ n ∧ steps k s = .next t) ∧
    (∀ t, runLoop n s = .running t → t.enabled ∧ steps n s = .next t) ∧
    (∀ r t, runLoop n s ≠ .refused r t)
end

