-- ==== Sys2Proof/Laws/Decode.lean ====
section
/-! SUPPORT. The opcode lookup under a well-formed map, and what the decoder's fields are (spec/30_encoding.md). -/

namespace Sys2Proof

theorem Mnemonic.mem_all (M : Mnemonic) : M ∈ Mnemonic.all := by cases M <;> decide

/-- A well-formed map is injective (R8, R9). -/
theorem OpcodeMap.opc_injective (m : OpcodeMap) (h : m.wf = true) (M N : Mnemonic) (e : m.opc M = m.opc N) : M = N := by
  simp only [OpcodeMap.wf, Bool.and_eq_true, decide_eq_true_eq] at h
  exact List.inj_on_of_nodup_map h.1 M.mem_all N.mem_all e

/-- A well-formed map puts every number in its range (R8). -/
theorem OpcodeMap.inRange_of_wf (m : OpcodeMap) (h : m.wf = true) (M : Mnemonic) : m.inRange M = true := by
  simp only [OpcodeMap.wf, Bool.and_eq_true, List.all_eq_true] at h
  exact h.2 M M.mem_all

/-- The lookup finds only a mnemonic of that number (R101). -/
theorem OpcodeMap.opc_of_lookup (m : OpcodeMap) (o : BitVec 8) (M : Mnemonic) (h : m.lookup o = some M) : m.opc M = o := by
  have := List.find?_some h
  simpa using this

/-- The lookup finds the mnemonic of a number (R9: at most one handler). -/
theorem OpcodeMap.lookup_opc (m : OpcodeMap) (h : m.wf = true) (M : Mnemonic) : m.lookup (m.opc M) = some M := by
  cases hl : m.lookup (m.opc M) with
  | none => exact absurd (List.find?_eq_none.mp hl M M.mem_all) (by simp)
  | some N => rw [m.opc_injective h N M (m.opc_of_lookup _ _ hl)]

/-- The lookup finds nothing exactly when the number is no mnemonic's (R82). -/
theorem OpcodeMap.lookup_eq_none (m : OpcodeMap) (o : BitVec 8) : m.lookup o = none ↔ ∀ M, m.opc M ≠ o := by
  constructor
  · intro h M
    simpa using List.find?_eq_none.mp h M M.mem_all
  · intro h
    exact List.find?_eq_none.mpr fun M _ => by simpa using h M

@[simp] theorem Mnemonic.mnemonic_toInstr (M : Mnemonic) (v : BitVec 28) : (M.toInstr v).mnemonic = M := by
  cases M <;> rfl

end Sys2Proof
end

