-- ==== Sys2Proof/Laws/State.lean ====
section
/-! SUPPORT. One lemma per field for each named update of the state: raise's latch, emit, endPhase, afterFetch and
placeWord, so that no proof unfolds them. -/

namespace Sys2Proof.Machine

@[simp] theorem State.emit_acc (s : State) (e : OutEvent) : (s.emit e).acc = s.acc := rfl
@[simp] theorem State.emit_iar (s : State) (e : OutEvent) : (s.emit e).iar = s.iar := rfl
@[simp] theorem State.emit_ir (s : State) (e : OutEvent) : (s.emit e).ir = s.ir := rfl
@[simp] theorem State.emit_run (s : State) (e : OutEvent) : (s.emit e).run = s.run := rfl
@[simp] theorem State.emit_ph (s : State) (e : OutEvent) : (s.emit e).ph = s.ph := rfl
@[simp] theorem State.emit_sar (s : State) (e : OutEvent) : (s.emit e).sar = s.sar := rfl
@[simp] theorem State.emit_sir (s : State) (e : OutEvent) : (s.emit e).sir = s.sir := rfl
@[simp] theorem State.emit_x (s : State) (e : OutEvent) : (s.emit e).x = s.x := rfl
@[simp] theorem State.emit_y (s : State) (e : OutEvent) : (s.emit e).y = s.y := rfl
@[simp] theorem State.emit_z (s : State) (e : OutEvent) : (s.emit e).z = s.z := rfl
@[simp] theorem State.emit_alu (s : State) (e : OutEvent) : (s.emit e).alu = s.alu := rfl
@[simp] theorem State.emit_ci (s : State) (e : OutEvent) : (s.emit e).ci = s.ci := rfl
@[simp] theorem State.emit_mem (s : State) (e : OutEvent) : (s.emit e).mem = s.mem := rfl
@[simp] theorem State.emit_out (s : State) (e : OutEvent) : (s.emit e).out = s.out ++ [e] := rfl
@[simp] theorem State.emit_diag (s : State) (e : OutEvent) : (s.emit e).diag = s.diag := rfl
@[simp] theorem State.emit_fault (s : State) (e : OutEvent) : (s.emit e).fault = s.fault := rfl
@[simp] theorem State.emit_rotDraws (s : State) (e : OutEvent) : (s.emit e).rotDraws = s.rotDraws := rfl
@[simp] theorem State.emit_cfg (s : State) (e : OutEvent) : (s.emit e).cfg = s.cfg := rfl

@[simp] theorem State.afterFetch_acc (s : State) (w : Word) : (s.afterFetch w).acc = s.acc := rfl
@[simp] theorem State.afterFetch_iar (s : State) (w : Word) : (s.afterFetch w).iar = s.iar + 1 := rfl
@[simp] theorem State.afterFetch_ir (s : State) (w : Word) : (s.afterFetch w).ir = w := rfl
@[simp] theorem State.afterFetch_run (s : State) (w : Word) : (s.afterFetch w).run = s.run := rfl
@[simp] theorem State.afterFetch_ph (s : State) (w : Word) : (s.afterFetch w).ph = 6 := rfl
@[simp] theorem State.afterFetch_sar (s : State) (w : Word) : (s.afterFetch w).sar = s.iar := rfl
@[simp] theorem State.afterFetch_sir (s : State) (w : Word) : (s.afterFetch w).sir = w := rfl
@[simp] theorem State.afterFetch_x (s : State) (w : Word) : (s.afterFetch w).x = s.iar := rfl
@[simp] theorem State.afterFetch_y (s : State) (w : Word) : (s.afterFetch w).y = 1 := rfl
@[simp] theorem State.afterFetch_z (s : State) (w : Word) : (s.afterFetch w).z = s.iar + 1 := rfl
@[simp] theorem State.afterFetch_alu (s : State) (w : Word) : (s.afterFetch w).alu = .inc := rfl
@[simp] theorem State.afterFetch_ci (s : State) (w : Word) : (s.afterFetch w).ci = decodeWord w := rfl
@[simp] theorem State.afterFetch_mem (s : State) (w : Word) : (s.afterFetch w).mem = s.mem := rfl
@[simp] theorem State.afterFetch_out (s : State) (w : Word) : (s.afterFetch w).out = s.out := rfl
@[simp] theorem State.afterFetch_diag (s : State) (w : Word) : (s.afterFetch w).diag = s.diag := rfl
@[simp] theorem State.afterFetch_fault (s : State) (w : Word) : (s.afterFetch w).fault = s.fault := rfl
@[simp] theorem State.afterFetch_rotDraws (s : State) (w : Word) : (s.afterFetch w).rotDraws = s.rotDraws := rfl
@[simp] theorem State.afterFetch_cfg (s : State) (w : Word) : (s.afterFetch w).cfg = s.cfg := rfl

@[simp] theorem State.placeWord_acc (s : State) (w : Word) : (s.placeWord w).acc = s.acc := rfl
@[simp] theorem State.placeWord_iar (s : State) (w : Word) : (s.placeWord w).iar = s.iar := rfl
@[simp] theorem State.placeWord_ir (s : State) (w : Word) : (s.placeWord w).ir = s.ir := rfl
@[simp] theorem State.placeWord_run (s : State) (w : Word) : (s.placeWord w).run = s.run := rfl
@[simp] theorem State.placeWord_ph (s : State) (w : Word) : (s.placeWord w).ph = s.ph := rfl
@[simp] theorem State.placeWord_sar (s : State) (w : Word) : (s.placeWord w).sar = s.sar := rfl
@[simp] theorem State.placeWord_sir (s : State) (w : Word) : (s.placeWord w).sir = s.sir := rfl
@[simp] theorem State.placeWord_x (s : State) (w : Word) : (s.placeWord w).x = s.x := rfl
@[simp] theorem State.placeWord_y (s : State) (w : Word) : (s.placeWord w).y = s.y := rfl
@[simp] theorem State.placeWord_z (s : State) (w : Word) : (s.placeWord w).z = s.z := rfl
@[simp] theorem State.placeWord_alu (s : State) (w : Word) : (s.placeWord w).alu = s.alu := rfl
@[simp] theorem State.placeWord_ci (s : State) (w : Word) : (s.placeWord w).ci = s.ci := rfl
@[simp] theorem State.placeWord_mem (s : State) (w : Word) : (s.placeWord w).mem = if isStorage s.cfg s.iar then s.mem.write s.iar.toNat w else s.mem := rfl
@[simp] theorem State.placeWord_out (s : State) (w : Word) : (s.placeWord w).out = s.out := rfl
@[simp] theorem State.placeWord_diag (s : State) (w : Word) : (s.placeWord w).diag = s.diag := rfl
@[simp] theorem State.placeWord_fault (s : State) (w : Word) : (s.placeWord w).fault = s.fault := rfl
@[simp] theorem State.placeWord_rotDraws (s : State) (w : Word) : (s.placeWord w).rotDraws = s.rotDraws := rfl
@[simp] theorem State.placeWord_cfg (s : State) (w : Word) : (s.placeWord w).cfg = s.cfg := rfl

@[simp] theorem State.one_eq (s : State) : s.one = 1 := rfl

@[simp] theorem State.endPhase_acc (s : State) : s.endPhase.acc = s.acc := by
  unfold State.endPhase; split <;> rfl
@[simp] theorem State.endPhase_iar (s : State) : s.endPhase.iar = s.iar := by
  unfold State.endPhase; split <;> rfl
@[simp] theorem State.endPhase_ir (s : State) : s.endPhase.ir = s.ir := by
  unfold State.endPhase; split <;> rfl
@[simp] theorem State.endPhase_run (s : State) : s.endPhase.run = s.run := by
  unfold State.endPhase; split <;> rfl
@[simp] theorem State.endPhase_sar (s : State) : s.endPhase.sar = s.sar := by
  unfold State.endPhase; split <;> rfl
@[simp] theorem State.endPhase_sir (s : State) : s.endPhase.sir = s.sir := by
  unfold State.endPhase; split <;> rfl
@[simp] theorem State.endPhase_x (s : State) : s.endPhase.x = s.x := by
  unfold State.endPhase; split <;> rfl
@[simp] theorem State.endPhase_y (s : State) : s.endPhase.y = s.y := by
  unfold State.endPhase; split <;> rfl
@[simp] theorem State.endPhase_z (s : State) : s.endPhase.z = s.z := by
  unfold State.endPhase; split <;> rfl
@[simp] theorem State.endPhase_alu (s : State) : s.endPhase.alu = s.alu := by
  unfold State.endPhase; split <;> rfl
@[simp] theorem State.endPhase_ci (s : State) : s.endPhase.ci = s.ci := by
  unfold State.endPhase; split <;> rfl
@[simp] theorem State.endPhase_mem (s : State) : s.endPhase.mem = s.mem := by
  unfold State.endPhase; split <;> rfl
@[simp] theorem State.endPhase_out (s : State) : s.endPhase.out = s.out := by
  unfold State.endPhase; split <;> rfl
@[simp] theorem State.endPhase_diag (s : State) : s.endPhase.diag = s.diag := by
  unfold State.endPhase; split <;> rfl
@[simp] theorem State.endPhase_fault (s : State) : s.endPhase.fault = s.fault := by
  unfold State.endPhase; split <;> rfl
@[simp] theorem State.endPhase_rotDraws (s : State) : s.endPhase.rotDraws = s.rotDraws := by
  unfold State.endPhase; split <;> rfl
@[simp] theorem State.endPhase_cfg (s : State) : s.endPhase.cfg = s.cfg := by
  unfold State.endPhase; split <;> rfl

/-- PH after a phase that raised nothing (R103). -/
@[simp] theorem State.endPhase_ph_of_none (s : State) (h : s.fault = none) : s.endPhase.ph = nextPhase s.ph := by
  simp [State.endPhase, h]

/-- PH after a phase that raised a fault (R104). -/
@[simp] theorem State.endPhase_ph_of_some (s : State) (c : FaultCause) (h : s.fault = some c) :
    s.endPhase.ph = s.ph := by
  simp [State.endPhase, h]

/-- A phase that raised nothing only advances PH besides its own transfers (R103). -/
theorem State.endPhase_of_none (s : State) (h : s.fault = none) :
    s.endPhase = { s with ph := nextPhase s.ph } := by
  simp [State.endPhase, h]

/-- A phase that raised a fault does not advance PH (R104). -/
theorem State.endPhase_of_some (s : State) (c : FaultCause) (h : s.fault = some c) : s.endPhase = s := by
  simp [State.endPhase, h]

/-- Two states with equal fields are equal. -/
theorem State.eq_of_fields (s t : State) (acc : s.acc = t.acc) (iar : s.iar = t.iar) (ir : s.ir = t.ir)
    (run : s.run = t.run) (ph : s.ph = t.ph) (sar : s.sar = t.sar) (sir : s.sir = t.sir) (x : s.x = t.x)
    (y : s.y = t.y) (z : s.z = t.z) (alu : s.alu = t.alu) (ci : s.ci = t.ci) (mem : s.mem = t.mem)
    (out : s.out = t.out) (diag : s.diag = t.diag) (fault : s.fault = t.fault) (rotDraws : s.rotDraws = t.rotDraws)
    (cfg : s.cfg = t.cfg) : s = t := by
  cases s; cases t; simp_all

@[simp] theorem endPhase_next (s : State) : endPhase (.next s) = .next s.endPhase := rfl
@[simp] theorem endPhase_fault (r : Fault) : endPhase (.fault r) = .fault r := rfl
@[simp] theorem endPhase_refused (r : Refusal) : endPhase (.refused r) = .refused r := rfl

end Sys2Proof.Machine
end

