-- ==== Sys2Proof/Laws/Ops.lean ====
section
/-! SUPPORT. One lemma per shared operation that says everything it can do: MemRead, MemWrite, the read of phase 9, the
store of STV's phase 7, the rotate of phase 11. -/

namespace Sys2Proof.Machine

theorem isStorage_iff (c : Config) (a : Word) : isStorage c a = true ↔ a.toNat < c.memWords := by
  simp [isStorage]

theorem isIo_iff (c : Config) (a : Word) : isIo c a = true ↔ c.ioBoundary.toNat ≤ a.toNat := by
  simp [isIo]

/-- A storage address reads as its cell (R55). -/
theorem State.memRead_storage (s : State) (a : Word) (h : isStorage s.cfg a = true) :
    s.memRead a = .ok (s.mem.read a.toNat) := by
  simp [State.memRead, h]

/-- Everything MemRead can answer (R55). -/
theorem State.memRead_cases (s : State) (a : Word) :
    (isStorage s.cfg a = true ∧ s.memRead a = .ok (s.mem.read a.toNat)) ∨
    (isStorage s.cfg a = false ∧ isIo s.cfg a = true ∧ s.memRead a = .error (.uReadIo a)) ∨
    (isStorage s.cfg a = false ∧ isIo s.cfg a = false ∧ s.memRead a = .error (.uOobRead a)) := by
  unfold State.memRead
  cases isStorage s.cfg a <;> cases isIo s.cfg a <;> simp

/-- Everything MemWrite can answer (R56). -/
theorem State.memWrite_cases (s : State) (a v : Word) :
    (isStorage s.cfg a = true ∧ s.memWrite a v = .ok { s with mem := s.mem.write a.toNat v }) ∨
    (isStorage s.cfg a = false ∧ isIo s.cfg a = false ∧ s.memWrite a v = .error (.uOobWrite a)) ∨
    (isStorage s.cfg a = false ∧ isIo s.cfg a = true ∧ a = s.cfg.ioCharPort ∧
      s.memWrite a v = .ok (s.emit (.char (v.setWidth 8)))) ∨
    (isStorage s.cfg a = false ∧ isIo s.cfg a = true ∧ a ≠ s.cfg.ioCharPort ∧ a = s.cfg.ioIntPort ∧
      s.memWrite a v = .ok (s.emit (.int v.toInt))) ∨
    (isStorage s.cfg a = false ∧ isIo s.cfg a = true ∧ a ≠ s.cfg.ioCharPort ∧ a ≠ s.cfg.ioIntPort ∧
      s.memWrite a v = .ok { s with diag := s.diag ++ [a] }) := by
  unfold State.memWrite
  cases isStorage s.cfg a
  · cases isIo s.cfg a
    · simp
    · by_cases h : a = s.cfg.ioCharPort
      · simp [h]
      · by_cases h' : a = s.cfg.ioIntPort
        · have h'' : s.cfg.ioIntPort ≠ s.cfg.ioCharPort := h' ▸ h
          simp [h', h'']
        · simp [h, h']
  · simp

/-- The read of phase 9: SIR takes the Word, or the fault is latched and nothing else changes (R104, R115). -/
theorem State.readToSir_cases (s : State) :
    (isStorage s.cfg s.sar = true ∧ s.readToSir = .next { s with sir := s.mem.read s.sar.toNat }) ∨
    (isStorage s.cfg s.sar = false ∧ isIo s.cfg s.sar = true ∧
      s.readToSir = .next { s with fault := some (.uReadIo s.sar) }) ∨
    (isStorage s.cfg s.sar = false ∧ isIo s.cfg s.sar = false ∧
      s.readToSir = .next { s with fault := some (.uOobRead s.sar) }) := by
  unfold State.readToSir State.raise
  rcases s.memRead_cases s.sar with h | h | h <;> simp [h]

/-- STV's phase 7: one of MemWrite's effects with SAR written, or the fault is latched and nothing else changes (R104,
R126). -/
theorem storePhase_cases (a : BitVec 28) (s : State) :
    (isStorage s.cfg (operandWord a) = true ∧
      storePhase a s = .next { s with sar := operandWord a, mem := s.mem.write (operandWord a).toNat s.sir }) ∨
    (isStorage s.cfg (operandWord a) = false ∧ isIo s.cfg (operandWord a) = false ∧
      storePhase a s = .next { s with fault := some (.uOobWrite (operandWord a)) }) ∨
    (isStorage s.cfg (operandWord a) = false ∧ isIo s.cfg (operandWord a) = true ∧
      operandWord a = s.cfg.ioCharPort ∧
      storePhase a s = .next { s with sar := operandWord a, out := s.out ++ [.char (s.sir.setWidth 8)] }) ∨
    (isStorage s.cfg (operandWord a) = false ∧ isIo s.cfg (operandWord a) = true ∧
      operandWord a ≠ s.cfg.ioCharPort ∧ operandWord a = s.cfg.ioIntPort ∧
      storePhase a s = .next { s with sar := operandWord a, out := s.out ++ [.int s.sir.toInt] }) ∨
    (isStorage s.cfg (operandWord a) = false ∧ isIo s.cfg (operandWord a) = true ∧
      operandWord a ≠ s.cfg.ioCharPort ∧ operandWord a ≠ s.cfg.ioIntPort ∧
      storePhase a s = .next { s with sar := operandWord a, diag := s.diag ++ [operandWord a] }) := by
  unfold storePhase State.raise
  rcases State.memWrite_cases { s with sar := operandWord a } (operandWord a) s.sir with
    h | h | h | h | h
  · exact .inl ⟨h.1, by rw [h.2]⟩
  · exact .inr (.inl ⟨h.1, h.2.1, by rw [h.2.2]⟩)
  · exact .inr (.inr (.inl ⟨h.1, h.2.1, h.2.2.1, by rw [h.2.2.2]; rfl⟩))
  · exact .inr (.inr (.inr (.inl ⟨h.1, h.2.1, h.2.2.1, h.2.2.2.1, by rw [h.2.2.2.2]; rfl⟩)))
  · exact .inr (.inr (.inr (.inr ⟨h.1, h.2.1, h.2.2.1, h.2.2.2.1, by rw [h.2.2.2.2]⟩)))

/-- A rotate by at most 32 (R137, R138). -/
theorem State.rotateToZ_of_le (s : State) (h : s.y.toNat ≤ 32) :
    s.rotateToZ = { s with z := rotr s.x s.y.toNat } := by
  simp [State.rotateToZ, h]

/-- A rotate by more than 32 draws a free value (R139). -/
theorem State.rotateToZ_of_gt (s : State) (h : 32 < s.y.toNat) :
    s.rotateToZ = { s with z := Config.rotOver s.rotDraws s.x s.y, rotDraws := s.rotDraws + 1 } := by
  simp [State.rotateToZ, Nat.not_le.mpr h]

/-- A rotate writes Z and the draw counter alone (R137, R138, R139). -/
theorem State.rotateToZ_writes (s : State) :
    s.rotateToZ = { s with z := s.rotateToZ.z, rotDraws := s.rotateToZ.rotDraws } := by
  unfold State.rotateToZ; split <;> rfl

/-- The counter's successor stays in 1 to 12 (R103). -/
theorem nextPhase_range (p : Nat) (h : 1 ≤ p ∧ p ≤ 12) : 1 ≤ nextPhase p ∧ nextPhase p ≤ 12 := by
  unfold nextPhase; split <;> omega

end Sys2Proof.Machine
end

