-- ==== Sys2Proof/Laws/Exec.lean ====
section
/-! SUPPORT. The handlers phase by phase, one lemma per shared handler that lists everything it can answer
(spec/41_alu_group.md R115, spec/44_unary_rotate.md R136 to R138), and each arm of `exec` as an equation. -/

namespace Sys2Proof.Machine

/-- Everything the ALU group's handler can answer (R115). -/
theorem aluGroup_cases (tag : AluTag) (op : Word → Word → Word) (a : BitVec 28) (s : State) :
    (s.ph = 6 ∧ aluGroup tag op a s = .next { s with sar := operandWord a }) ∨
    (s.ph = 7 ∧ aluGroup tag op a s = .next { s with x := s.acc }) ∨
    (s.ph = 9 ∧ aluGroup tag op a s = s.readToSir) ∨
    (s.ph = 10 ∧ aluGroup tag op a s = .next { s with y := s.sir, alu := tag }) ∨
    (s.ph = 11 ∧ aluGroup tag op a s = .next { s with z := op s.x s.y }) ∨
    (s.ph = 12 ∧ aluGroup tag op a s = .next { s with acc := s.z }) ∨
    (s.ph ≠ 6 ∧ s.ph ≠ 7 ∧ s.ph ≠ 9 ∧ s.ph ≠ 10 ∧ s.ph ≠ 11 ∧ s.ph ≠ 12 ∧ aluGroup tag op a s = .next s) := by
  unfold aluGroup
  split <;> simp_all

/-- Everything the handler of the two rotates can answer (R137, R138). -/
theorem rotateGroup_cases (amount : Word) (s : State) :
    (s.ph = 7 ∧ rotateGroup amount s = .next { s with x := s.acc }) ∨
    (s.ph = 10 ∧ rotateGroup amount s = .next { s with y := amount, alu := .rot }) ∨
    (s.ph = 11 ∧ rotateGroup amount s = .next s.rotateToZ) ∨
    (s.ph = 12 ∧ rotateGroup amount s = .next { s with acc := s.z }) ∨
    (s.ph ≠ 7 ∧ s.ph ≠ 10 ∧ s.ph ≠ 11 ∧ s.ph ≠ 12 ∧ rotateGroup amount s = .next s) := by
  unfold rotateGroup
  split <;> simp_all

/-- Everything NOT's handler can answer (R136). -/
theorem execNot_cases (s : State) :
    (s.ph = 7 ∧ execNot s = .next { s with x := s.acc }) ∨
    (s.ph = 10 ∧ execNot s = .next { s with alu := .not }) ∨
    (s.ph = 11 ∧ execNot s = .next { s with z := ~~~s.x }) ∨
    (s.ph = 12 ∧ execNot s = .next { s with acc := s.z }) ∨
    (s.ph ≠ 7 ∧ s.ph ≠ 10 ∧ s.ph ≠ 11 ∧ s.ph ≠ 12 ∧ execNot s = .next s) := by
  unfold execNot
  split <;> simp_all

/-- Everything LDV's handler can answer (R125). -/
theorem execLdv_cases (a : BitVec 28) (s : State) :
    (s.ph = 6 ∧ execLdv a s = .next { s with sar := operandWord a }) ∨
    (s.ph = 9 ∧ execLdv a s = s.readToSir) ∨
    (s.ph = 10 ∧ execLdv a s = .next { s with acc := s.sir }) ∨
    (s.ph ≠ 6 ∧ s.ph ≠ 9 ∧ s.ph ≠ 10 ∧ execLdv a s = .next s) := by
  unfold execLdv
  split <;> simp_all

/-- Everything STV's handler can answer (R126). -/
theorem execStv_cases (a : BitVec 28) (s : State) :
    (s.ph = 6 ∧ execStv a s = .next { s with sir := s.acc }) ∨
    (s.ph = 7 ∧ execStv a s = storePhase a s) ∨
    (s.ph ≠ 6 ∧ s.ph ≠ 7 ∧ execStv a s = .next s) := by
  unfold execStv
  split <;> simp_all

/-- Everything LDC's handler can answer (R127). -/
theorem execLdc_cases (c : BitVec 28) (s : State) :
    (s.ph = 6 ∧ execLdc c s = .next { s with acc := operandWord c }) ∨ (s.ph ≠ 6 ∧ execLdc c s = .next s) := by
  unfold execLdc
  split <;> simp_all

/-- Everything JMP's handler can answer (R130). -/
theorem execJmp_cases (t : BitVec 28) (s : State) :
    (s.ph = 6 ∧ execJmp t s = .next { s with iar := operandWord t }) ∨ (s.ph ≠ 6 ∧ execJmp t s = .next s) := by
  unfold execJmp
  split <;> simp_all

/-- Everything JMN's handler can answer (R131). -/
theorem execJmn_cases (t : BitVec 28) (s : State) :
    (s.ph = 6 ∧ isNegative s.acc = true ∧ execJmn t s = .next { s with iar := operandWord t }) ∨
    ((s.ph ≠ 6 ∨ isNegative s.acc = false) ∧ execJmn t s = .next s) := by
  unfold execJmn
  split
  · by_cases h : isNegative s.acc = true <;> simp_all
  · simp_all

/-- Everything HLT's handler can answer (R145). -/
theorem execHlt_cases (s : State) :
    (s.ph = 12 ∧ execHlt s = .next { s with run := false }) ∨ (s.ph ≠ 12 ∧ execHlt s = .next s) := by
  unfold execHlt
  split <;> simp_all

@[simp] theorem exec_and (a : BitVec 28) (s : State) :
    exec (.and a) s = aluGroup .and (fun x y => x &&& y) a s := rfl
@[simp] theorem exec_or (a : BitVec 28) (s : State) : exec (.or a) s = aluGroup .or (fun x y => x ||| y) a s := rfl
@[simp] theorem exec_xor (a : BitVec 28) (s : State) :
    exec (.xor a) s = aluGroup .xor (fun x y => x ^^^ y) a s := rfl
@[simp] theorem exec_add (a : BitVec 28) (s : State) : exec (.add a) s = aluGroup .add (fun x y => x + y) a s := rfl
@[simp] theorem exec_eql (a : BitVec 28) (s : State) : exec (.eql a) s = aluGroup .eql eqlWord a s := rfl
@[simp] theorem exec_ldv (a : BitVec 28) (s : State) : exec (.ldv a) s = execLdv a s := rfl
@[simp] theorem exec_stv (a : BitVec 28) (s : State) : exec (.stv a) s = execStv a s := rfl
@[simp] theorem exec_ldc (c : BitVec 28) (s : State) : exec (.ldc c) s = execLdc c s := rfl
@[simp] theorem exec_jmp (t : BitVec 28) (s : State) : exec (.jmp t) s = execJmp t s := rfl
@[simp] theorem exec_jmn (t : BitVec 28) (s : State) : exec (.jmn t) s = execJmn t s := rfl
@[simp] theorem exec_hlt (s : State) : exec .hlt s = execHlt s := rfl
@[simp] theorem exec_not (s : State) : exec .not s = execNot s := rfl
@[simp] theorem exec_rar (s : State) : exec .rar s = rotateGroup 1 s := rfl
@[simp] theorem exec_rrn (n : BitVec 28) (s : State) : exec (.rrn n) s = rotateGroup (operandWord n) s := rfl

end Sys2Proof.Machine
end

