-- ==== Sys2Proof/Laws/Effect.lean ====
section
/-! SUPPORT. Everything a handler can do, said once: `ExecEffect s i t` lists the effects an execute phase of instruction
i can have on s (the transfer matrix of spec/10_state.md R39), and `exec_effect` says that there are no others. -/

namespace Sys2Proof.Machine

/-- i is LDV a or an ALU-group instruction with address a: the instructions that read an operand (R52 (b)). -/
def ReadsOperand (i : Instr) (a : BitVec 28) : Prop := i = .ldv a ∨ ∃ op, aluMeaning i = some (a, op)

/-- i takes ACC through X and Z: the ALU group, NOT and the rotates (R115, R136 to R138). -/
def UsesDatapath (i : Instr) : Prop :=
  i = .not ∨ (∃ a op, aluMeaning i = some (a, op)) ∨ ∃ k, rotateMeaning i = some k

/-- The effects instruction i can have on s in one execute phase, each with its phase (R39). -/
inductive ExecEffect (s : State) (i : Instr) : State → Prop where
  | nothing : ExecEffect s i s
  | latchAddress (a : BitVec 28) (ph : s.ph = 6) (hi : ReadsOperand i a) :
      ExecEffect s i { s with sar := operandWord a }
  | latchAcc (ph : s.ph = 7) (hi : UsesDatapath i) : ExecEffect s i { s with x := s.acc }
  | readOperand (a : BitVec 28) (ph : s.ph = 9) (hi : ReadsOperand i a) (ha : isStorage s.cfg s.sar = true) :
      ExecEffect s i { s with sir := s.mem.read s.sar.toNat }
  | readIo (a : BitVec 28) (ph : s.ph = 9) (hi : ReadsOperand i a) (ha : isStorage s.cfg s.sar = false)
      (hio : isIo s.cfg s.sar = true) : ExecEffect s i { s with fault := some (.uReadIo s.sar) }
  | readHole (a : BitVec 28) (ph : s.ph = 9) (hi : ReadsOperand i a) (ha : isStorage s.cfg s.sar = false)
      (hio : isIo s.cfg s.sar = false) : ExecEffect s i { s with fault := some (.uOobRead s.sar) }
  | latchOperand (tag : AluTag) (a : BitVec 28) (op : Word → Word → Word) (ph : s.ph = 10)
      (hi : aluMeaning i = some (a, op)) : ExecEffect s i { s with y := s.sir, alu := tag }
  | latchAmount (tag : AluTag) (k : Word) (ph : s.ph = 10) (hi : rotateMeaning i = some k) :
      ExecEffect s i { s with y := k, alu := tag }
  | selectComplement (tag : AluTag) (ph : s.ph = 10) (hi : i = .not) : ExecEffect s i { s with alu := tag }
  | combine (a : BitVec 28) (op : Word → Word → Word) (ph : s.ph = 11) (hi : aluMeaning i = some (a, op)) :
      ExecEffect s i { s with z := op s.x s.y }
  | complement (ph : s.ph = 11) (hi : i = .not) : ExecEffect s i { s with z := ~~~s.x }
  | rotate (k : Word) (ph : s.ph = 11) (hi : rotateMeaning i = some k) : ExecEffect s i s.rotateToZ
  | accFromZ (ph : s.ph = 12) (hi : UsesDatapath i) : ExecEffect s i { s with acc := s.z }
  | accFromSir (a : BitVec 28) (ph : s.ph = 10) (hi : i = .ldv a) : ExecEffect s i { s with acc := s.sir }
  | accFromValue (c : BitVec 28) (ph : s.ph = 6) (hi : i = .ldc c) : ExecEffect s i { s with acc := operandWord c }
  | jump (d : BitVec 28) (ph : s.ph = 6) (hi : i = .jmp d ∨ i = .jmn d ∧ isNegative s.acc = true) :
      ExecEffect s i { s with iar := operandWord d }
  | halt (ph : s.ph = 12) (hi : i = .hlt) : ExecEffect s i { s with run := false }
  | latchStored (a : BitVec 28) (ph : s.ph = 6) (hi : i = .stv a) : ExecEffect s i { s with sir := s.acc }
  | store (a : BitVec 28) (ph : s.ph = 7) (hi : i = .stv a) (ha : isStorage s.cfg (operandWord a) = true) :
      ExecEffect s i { s with sar := operandWord a, mem := s.mem.write (operandWord a).toNat s.sir }
  | storeHole (a : BitVec 28) (ph : s.ph = 7) (hi : i = .stv a) (ha : isStorage s.cfg (operandWord a) = false)
      (hio : isIo s.cfg (operandWord a) = false) :
      ExecEffect s i { s with fault := some (.uOobWrite (operandWord a)) }
  | emitEvent (a : BitVec 28) (e : OutEvent) (ph : s.ph = 7) (hi : i = .stv a)
      (he : e = .char (s.sir.setWidth 8) ∨ e = .int s.sir.toInt) :
      ExecEffect s i { s with sar := operandWord a, out := s.out ++ [e] }
  | discard (a : BitVec 28) (ph : s.ph = 7) (hi : i = .stv a) :
      ExecEffect s i { s with sar := operandWord a, diag := s.diag ++ [operandWord a] }

/-- The read of phase 9 has one of its three effects. -/
theorem readToSir_effect (s : State) (i : Instr) (a : BitVec 28) (ph : s.ph = 9) (hi : ReadsOperand i a) :
    ∃ t, s.readToSir = .next t ∧ ExecEffect s i t := by
  rcases s.readToSir_cases with ⟨ha, e⟩ | ⟨ha, hio, e⟩ | ⟨ha, hio, e⟩
  · exact ⟨_, e, .readOperand a ph hi ha⟩
  · exact ⟨_, e, .readIo a ph hi ha hio⟩
  · exact ⟨_, e, .readHole a ph hi ha hio⟩

/-- The ALU group's handler has one of the effects. -/
theorem aluGroup_effect (tag : AluTag) (op : Word → Word → Word) (a : BitVec 28) (s : State) (i : Instr)
    (hi : aluMeaning i = some (a, op)) : ∃ t, aluGroup tag op a s = .next t ∧ ExecEffect s i t := by
  have reads : ReadsOperand i a := .inr ⟨op, hi⟩
  have uses : UsesDatapath i := .inr (.inl ⟨a, op, hi⟩)
  rcases aluGroup_cases tag op a s with ⟨h, e⟩ | ⟨h, e⟩ | ⟨h, e⟩ | ⟨h, e⟩ | ⟨h, e⟩ | ⟨h, e⟩ | h
  · exact ⟨_, e, .latchAddress a h reads⟩
  · exact ⟨_, e, .latchAcc h uses⟩
  · rw [e]; exact readToSir_effect s i a h reads
  · exact ⟨_, e, .latchOperand tag a op h hi⟩
  · exact ⟨_, e, .combine a op h hi⟩
  · exact ⟨_, e, .accFromZ h uses⟩
  · exact ⟨_, h.2.2.2.2.2.2, .nothing⟩

/-- The rotates' handler has one of the effects. -/
theorem rotateGroup_effect (k : Word) (s : State) (i : Instr) (hi : rotateMeaning i = some k) :
    ∃ t, rotateGroup k s = .next t ∧ ExecEffect s i t := by
  have uses : UsesDatapath i := .inr (.inr ⟨k, hi⟩)
  rcases rotateGroup_cases k s with ⟨h, e⟩ | ⟨h, e⟩ | ⟨h, e⟩ | ⟨h, e⟩ | h
  · exact ⟨_, e, .latchAcc h uses⟩
  · exact ⟨_, e, .latchAmount .rot k h hi⟩
  · exact ⟨_, e, .rotate k h hi⟩
  · exact ⟨_, e, .accFromZ h uses⟩
  · exact ⟨_, h.2.2.2.2, .nothing⟩

/-- STV's handler has one of the effects. -/
theorem execStv_effect (a : BitVec 28) (s : State) : ∃ t, execStv a s = .next t ∧ ExecEffect s (.stv a) t := by
  rcases execStv_cases a s with ⟨h, e⟩ | ⟨h, e⟩ | ⟨_, _, e⟩
  · exact ⟨_, e, .latchStored a h rfl⟩
  · rw [e]
    rcases storePhase_cases a s with ⟨ha, g⟩ | ⟨ha, hio, g⟩ | ⟨_, _, _, g⟩ | ⟨_, _, _, _, g⟩ | ⟨_, _, _, _, g⟩
    · exact ⟨_, g, .store a h rfl ha⟩
    · exact ⟨_, g, .storeHole a h rfl ha hio⟩
    · exact ⟨_, g, .emitEvent a _ h rfl (.inl rfl)⟩
    · exact ⟨_, g, .emitEvent a _ h rfl (.inr rfl)⟩
    · exact ⟨_, g, .discard a h rfl⟩
  · exact ⟨_, e, .nothing⟩

/-- `exec` answers a state that one of the effects makes, for every instruction in every state (R39, R101, R102). -/
theorem exec_effect (i : Instr) (s : State) : ∃ t, exec i s = .next t ∧ ExecEffect s i t := by
  cases i with
  | and a => exact aluGroup_effect _ _ a s _ rfl
  | or a => exact aluGroup_effect _ _ a s _ rfl
  | xor a => exact aluGroup_effect _ _ a s _ rfl
  | add a => exact aluGroup_effect _ _ a s _ rfl
  | eql a => exact aluGroup_effect _ _ a s _ rfl
  | rar => exact rotateGroup_effect _ s _ rfl
  | rrn n => exact rotateGroup_effect _ s _ rfl
  | stv a => exact execStv_effect a s
  | ldv a =>
    rcases execLdv_cases a s with ⟨h, e⟩ | ⟨h, e⟩ | ⟨h, e⟩ | ⟨_, _, _, e⟩
    · exact ⟨_, e, .latchAddress a h (.inl rfl)⟩
    · rw [exec_ldv, e]; exact readToSir_effect s _ a h (.inl rfl)
    · exact ⟨_, e, .accFromSir a h rfl⟩
    · exact ⟨_, e, .nothing⟩
  | ldc c =>
    rcases execLdc_cases c s with ⟨h, e⟩ | ⟨_, e⟩
    · exact ⟨_, e, .accFromValue c h rfl⟩
    · exact ⟨_, e, .nothing⟩
  | jmp d =>
    rcases execJmp_cases d s with ⟨h, e⟩ | ⟨_, e⟩
    · exact ⟨_, e, .jump d h (.inl rfl)⟩
    · exact ⟨_, e, .nothing⟩
  | jmn d =>
    rcases execJmn_cases d s with ⟨h, n, e⟩ | ⟨_, e⟩
    · exact ⟨_, e, .jump d h (.inr ⟨rfl, n⟩)⟩
    · exact ⟨_, e, .nothing⟩
  | hlt =>
    rcases execHlt_cases s with ⟨h, e⟩ | ⟨_, e⟩
    · exact ⟨_, e, .halt h rfl⟩
    · exact ⟨_, e, .nothing⟩
  | not =>
    rcases execNot_cases s with ⟨h, e⟩ | ⟨h, e⟩ | ⟨h, e⟩ | ⟨h, e⟩ | ⟨_, _, _, _, e⟩
    · exact ⟨_, e, .latchAcc h (.inl rfl)⟩
    · exact ⟨_, e, .selectComplement .not h rfl⟩
    · exact ⟨_, e, .complement h rfl⟩
    · exact ⟨_, e, .accFromZ h (.inl rfl)⟩
    · exact ⟨_, e, .nothing⟩

/-- A next state of `exec` is the work of one of the effects. -/
theorem effect_of_exec (i : Instr) (s t : State) (h : exec i s = .next t) : ExecEffect s i t := by
  obtain ⟨u, e, f⟩ := exec_effect i s
  rw [e] at h
  cases h
  exact f

end Sys2Proof.Machine
end

