-- ==== Sys2Proof/Laws/Memory.lean ====
section
/-! SUPPORT. The laws of the memory array: read after write, every other cell alone, the canonical form and the bound
kept by every operation (spec/20_memory.md R55, R56; spec/10_state.md R36, R40). -/

namespace Sys2Proof.Machine

@[simp] theorem Memory.read_nil (a : Nat) : Memory.read [] a = 0 := rfl

theorem Memory.read_cons (c : Nat × Word) (m : Memory) (a : Nat) :
    Memory.read (c :: m) a = if c.1 = a then c.2 else Memory.read m a := rfl

/-- Dropping the cells of another address leaves a read alone. -/
theorem Memory.read_filter_of_ne (m : Memory) (a b : Nat) (h : b ≠ a) :
    Memory.read (m.filter fun c => c.1 != a) b = Memory.read m b := by
  induction m with
  | nil => rfl
  | cons c m ih =>
    by_cases hc : c.1 = a
    · simp [hc, Memory.read_cons, ih, h.symm]
    · simp [hc, Memory.read_cons, ih]

/-- With no cell of an address listed, the address reads as 0. -/
theorem Memory.read_filter_self (m : Memory) (a : Nat) : Memory.read (m.filter fun c => c.1 != a) a = 0 := by
  induction m with
  | nil => rfl
  | cons c m ih =>
    by_cases hc : c.1 = a
    · simp [hc, ih]
    · simp [hc, Memory.read_cons, ih]

theorem Memory.read_insert_of_ne (m : Memory) (a b : Nat) (v : Word) (h : b ≠ a) :
    Memory.read (Memory.insert a v m) b = Memory.read m b := by
  induction m with
  | nil => simp [Memory.insert, Memory.read_cons, h.symm]
  | cons c m ih =>
    unfold Memory.insert
    split
    · simp [Memory.read_cons, h.symm]
    · simp [Memory.read_cons, ih]

theorem Memory.read_insert_self (m : Memory) (a : Nat) (v : Word) (h : ∀ c ∈ m, c.1 ≠ a) :
    Memory.read (Memory.insert a v m) a = v := by
  induction m with
  | nil => simp [Memory.insert, Memory.read_cons]
  | cons c m ih =>
    unfold Memory.insert
    split
    · simp [Memory.read_cons]
    · simp [Memory.read_cons, h c (by simp), ih fun d hd => h d (by simp [hd])]

/-- A read of the address written gives the Word written (R56, R68 (a)). -/
@[simp] theorem Memory.read_write_self (m : Memory) (a : Nat) (v : Word) : (Memory.write m a v).read a = v := by
  unfold Memory.write
  split
  · simp [Memory.read_filter_self, *]
  · exact Memory.read_insert_self _ _ _ (by simp [List.mem_filter])

/-- A write changes exactly one cell (R56). -/
theorem Memory.read_write_of_ne (m : Memory) (a b : Nat) (v : Word) (h : b ≠ a) :
    (Memory.write m a v).read b = m.read b := by
  unfold Memory.write
  split
  · exact Memory.read_filter_of_ne m a b h
  · rw [Memory.read_insert_of_ne _ _ _ _ h]; exact Memory.read_filter_of_ne m a b h

theorem Memory.read_write (m : Memory) (a b : Nat) (v : Word) :
    (Memory.write m a v).read b = if b = a then v else m.read b := by
  split
  · subst b; exact Memory.read_write_self m a v
  · exact Memory.read_write_of_ne m a b v ‹_›

theorem Memory.mem_insert (m : Memory) (a : Nat) (v : Word) (c : Nat × Word) (h : c ∈ Memory.insert a v m) :
    c = (a, v) ∨ c ∈ m := by
  induction m with
  | nil => simpa [Memory.insert] using h
  | cons d m ih =>
    unfold Memory.insert at h
    split at h
    · simpa using h
    · rcases List.mem_cons.mp h with rfl | h
      · simp
      · rcases ih h with h | h <;> simp [h]

theorem Memory.mem_write (m : Memory) (a : Nat) (v : Word) (c : Nat × Word) (h : c ∈ Memory.write m a v) :
    c = (a, v) ∧ v ≠ 0 ∨ c ∈ m := by
  unfold Memory.write at h
  split at h
  · exact .inr (List.mem_filter.mp h).1
  · rcases Memory.mem_insert _ _ _ _ h with h | h
    · exact .inl ⟨h, ‹_›⟩
    · exact .inr (List.mem_filter.mp h).1

theorem Memory.insert_rising (m : Memory) (a : Nat) (v : Word) (hm : m.Pairwise fun c d => c.1 < d.1)
    (ha : ∀ c ∈ m, c.1 ≠ a) : (Memory.insert a v m).Pairwise fun c d => c.1 < d.1 := by
  induction m with
  | nil => simp [Memory.insert]
  | cons c m ih =>
    have hc := List.pairwise_cons.mp hm
    unfold Memory.insert
    split
    · rename_i h
      refine List.pairwise_cons.mpr ⟨fun d hd => ?_, hm⟩
      rcases List.mem_cons.mp hd with rfl | hd
      · exact h
      · exact lt_trans h (hc.1 d hd)
    · rename_i h
      refine List.pairwise_cons.mpr ⟨fun d hd => ?_, ih hc.2 fun d hd => ha d (by simp [hd])⟩
      rcases Memory.mem_insert _ _ _ _ hd with rfl | hd
      · have := ha c (by simp); simp only; omega
      · exact hc.1 d hd

/-- A write keeps the canonical form. -/
theorem Memory.write_wf (m : Memory) (a : Nat) (v : Word) (h : m.wf) : (Memory.write m a v).wf := by
  refine ⟨?_, fun c hc => ?_⟩
  · unfold Memory.write
    split
    · exact h.1.filter _
    · exact Memory.insert_rising _ _ _ (h.1.filter _) (by simp [List.mem_filter])
  · rcases Memory.mem_write _ _ _ _ hc with ⟨rfl, hv⟩ | hc
    · exact hv
    · exact h.2 c hc

/-- A write inside the bound keeps every cell inside the bound. -/
theorem Memory.write_within (m : Memory) (a : Nat) (v : Word) (words : Nat) (h : m.within words) (ha : a < words) :
    (Memory.write m a v).within words := fun c hc => by
  rcases Memory.mem_write _ _ _ _ hc with ⟨rfl, _⟩ | hc
  · exact ha
  · exact h c hc

/-- The memory at creation is in canonical form and empty (R41). -/
theorem State.create_mem_wf (c : Config) : (State.create c).mem.wf ∧ (State.create c).mem.within c.memWords := by
  constructor <;> simp [State.create, Memory.wf]

/-- The reset state's memory is in canonical form. -/
theorem State.reset_mem_wf : State.reset.mem.wf := (State.create_mem_wf _).1

/-- Loading an image keeps the canonical form and the bound, and changes MEM alone (R177). -/
theorem State.load_keeps (image : List (Nat × Word)) (s t : State) (h : s.load image = .ok t) (hw : s.mem.wf)
    (hb : s.mem.within s.cfg.memWords) :
    t.mem.wf ∧ t.mem.within s.cfg.memWords ∧ t = { s with mem := t.mem } := by
  induction image generalizing s with
  | nil => simp only [State.load, Except.ok.injEq] at h; subst h; exact ⟨hw, hb, rfl⟩
  | cons c image ih =>
    unfold State.load at h
    split at h
    · rename_i hc
      exact ih { s with mem := s.mem.write c.1 c.2 } h (Memory.write_wf _ _ _ hw)
        (Memory.write_within _ _ _ _ hb hc)
    · cases h

end Sys2Proof.Machine
end

