-- ==== Sys2Proof/Laws/PerInstr.lean ====
section
/-! SUPPORT. A law of every instruction as syntax, one lemma per constructor: the family Rebuild says that a mnemonic and
a value field make the instruction they came from (spec/30_encoding.md R78, R83). -/

namespace Sys2Proof.Laws.Rebuild

/-- The instruction its own mnemonic and value field make is itself, and an extended mnemonic's value fits the 24-bit
field exactly when the instruction is well formed. -/
def Statement (i : Instr) : Prop :=
  i.mnemonic.toInstr i.value = i ∧
    (i.wellFormed = true ↔ (i.mnemonic.isExtended = true → i.value.toNat < 2 ^ 24))

theorem and (a : BitVec 28) : Statement (.and a) := ⟨rfl, by simp [Instr.wellFormed, Instr.mnemonic, Mnemonic.isExtended]⟩
theorem or (a : BitVec 28) : Statement (.or a) := ⟨rfl, by simp [Instr.wellFormed, Instr.mnemonic, Mnemonic.isExtended]⟩
theorem xor (a : BitVec 28) : Statement (.xor a) := ⟨rfl, by simp [Instr.wellFormed, Instr.mnemonic, Mnemonic.isExtended]⟩
theorem add (a : BitVec 28) : Statement (.add a) := ⟨rfl, by simp [Instr.wellFormed, Instr.mnemonic, Mnemonic.isExtended]⟩
theorem ldv (a : BitVec 28) : Statement (.ldv a) := ⟨rfl, by simp [Instr.wellFormed, Instr.mnemonic, Mnemonic.isExtended]⟩
theorem stv (a : BitVec 28) : Statement (.stv a) := ⟨rfl, by simp [Instr.wellFormed, Instr.mnemonic, Mnemonic.isExtended]⟩
theorem ldc (c : BitVec 28) : Statement (.ldc c) := ⟨rfl, by simp [Instr.wellFormed, Instr.mnemonic, Mnemonic.isExtended]⟩
theorem jmp (t : BitVec 28) : Statement (.jmp t) := ⟨rfl, by simp [Instr.wellFormed, Instr.mnemonic, Mnemonic.isExtended]⟩
theorem jmn (t : BitVec 28) : Statement (.jmn t) := ⟨rfl, by simp [Instr.wellFormed, Instr.mnemonic, Mnemonic.isExtended]⟩
theorem eql (a : BitVec 28) : Statement (.eql a) := ⟨rfl, by simp [Instr.wellFormed, Instr.mnemonic, Mnemonic.isExtended]⟩
theorem hlt : Statement .hlt := ⟨rfl, by decide⟩
theorem not : Statement .not := ⟨rfl, by decide⟩
theorem rar : Statement .rar := ⟨rfl, by decide⟩
theorem rrn (n : BitVec 28) : Statement (.rrn n) :=
  ⟨rfl, by simp [Instr.wellFormed, Instr.mnemonic, Mnemonic.isExtended, Instr.value]⟩

end Sys2Proof.Laws.Rebuild
end

