-- ==== Sys2Proof/Laws/Step.lean ====
section
/-! SUPPORT. What a step can do (spec/40_sequencer.md R107) and how a run of several steps is taken apart. -/

namespace Sys2Proof.Machine

/-- An enabled step is R107's. -/
theorem step_of_enabled (s : State) (h : s.enabled) : step s = phaseStep exec s := by
  simp [step, stepWith, h.1, h.2]

/-- Everything a step can answer (R95, R107): stopped, halted, the range fault, a fetch phase, an execute phase, or the
fault of an illegal opcode. -/
theorem step_cases (s : State) :
    (∃ c, s.fault = some c ∧ step s = .fault (.faulted c)) ∨
    (s.fault = none ∧ s.run = false ∧ step s = .fault .halted) ∨
    (s.enabled ∧ (s.ph < 1 ∨ 12 < s.ph) ∧ step s = .next { s with fault := some (.fPhaseRange s.ph) }) ∨
    (s.enabled ∧ 1 ≤ s.ph ∧ s.ph ≤ 5 ∧ step s = endPhase (fetchPhase s)) ∨
    (s.enabled ∧ 6 ≤ s.ph ∧ s.ph ≤ 12 ∧
      ∃ i, selectInstr s.cfg.opcodes s.ci = .ok i ∧ step s = endPhase (exec i s)) ∨
    (s.enabled ∧ 6 ≤ s.ph ∧ s.ph ≤ 12 ∧
      ∃ o, selectInstr s.cfg.opcodes s.ci = .error (.invalidOpcode o) ∧
        step s = .next { s with fault := some (.fInvalidOpcode o) }) := by
  by_cases he : s.enabled
  · rw [step_of_enabled s he]
    unfold phaseStep
    by_cases h1 : s.ph < 1 ∨ 12 < s.ph
    · exact .inr (.inr (.inl ⟨he, h1, by rw [if_pos h1]; rfl⟩))
    · rw [if_neg h1]
      by_cases h5 : s.ph ≤ 5
      · exact .inr (.inr (.inr (.inl ⟨he, by omega, h5, by rw [if_pos h5]⟩)))
      · rw [if_neg h5]
        unfold executePhase
        cases hd : selectInstr s.cfg.opcodes s.ci with
        | ok i => exact .inr (.inr (.inr (.inr (.inl ⟨he, by omega, by omega, i, rfl, rfl⟩))))
        | error e =>
          obtain ⟨o⟩ := e
          exact .inr (.inr (.inr (.inr (.inr ⟨he, by omega, by omega, o, rfl, rfl⟩))))
  · unfold step stepWith
    cases hf : s.fault with
    | some c => exact .inl ⟨c, rfl, rfl⟩
    | none =>
      have hr : s.run = false := by
        cases h : s.run
        · rfl
        · exact absurd ⟨h, hf⟩ he
      exact .inr (.inl ⟨rfl, hr, by rw [hr]; rfl⟩)

/-- Everything a fetch phase can answer (R96 to R100). -/
theorem fetchPhase_cases (s : State) (h : 1 ≤ s.ph ∧ s.ph ≤ 5) :
    (s.ph = 1 ∧ fetchPhase s = .next { s with sar := s.iar, x := s.iar }) ∨
    (s.ph = 2 ∧ fetchPhase s = .next { s with y := 1, alu := .inc }) ∨
    (s.ph = 3 ∧ fetchPhase s = .next { s with z := s.x + s.y }) ∨
    (s.ph = 4 ∧ isStorage s.cfg s.sar = true ∧ fetchPhase s =
      .next { s with iar := s.z, ci := decodeWord (s.mem.read s.sar.toNat), sir := s.mem.read s.sar.toNat }) ∨
    (s.ph = 4 ∧ isStorage s.cfg s.sar = false ∧ isIo s.cfg s.sar = true ∧
      fetchPhase s = .next { s with fault := some (.uReadIo s.sar) }) ∨
    (s.ph = 4 ∧ isStorage s.cfg s.sar = false ∧ isIo s.cfg s.sar = false ∧
      fetchPhase s = .next { s with fault := some (.uOobRead s.sar) }) ∨
    (s.ph = 5 ∧ fetchPhase s = .next { s with ir := s.sir }) := by
  have hp : s.ph = 1 ∨ s.ph = 2 ∨ s.ph = 3 ∨ s.ph = 4 ∨ s.ph = 5 := by omega
  unfold fetchPhase
  rcases hp with hp | hp | hp | hp | hp
  · simp [hp]
  · simp [hp]
  · simp [hp]
  · unfold fetchRead State.raise
    rcases s.memRead_cases s.sar with h | h | h <;> simp [hp, h]
  · simp [hp]

@[simp] theorem steps_zero (s : State) : steps 0 s = .next s := rfl

/-- k + 1 steps: one, then k. -/
theorem steps_succ (k : Nat) (s : State) :
    steps (k + 1) s =
      match step s with
      | .next t => steps k t
      | .fault r => .fault r
      | .refused r => .refused r := rfl

/-- k + 1 steps, the first of which answers a next state. -/
theorem steps_succ_next (k : Nat) (s t : State) (h : step s = .next t) : steps (k + 1) s = steps k t := by
  rw [steps_succ, h]

/-- A run of j + k steps is a run of k steps after one of j. -/
theorem steps_add (j k : Nat) (s t : State) (h : steps j s = .next t) : steps (j + k) s = steps k t := by
  induction j generalizing s with
  | zero => cases h; rw [Nat.zero_add]
  | succ j ih =>
    rw [Nat.add_right_comm]
    rw [steps_succ] at h
    cases hs : step s with
    | next s' => rw [hs] at h; rw [steps_succ_next _ _ _ hs]; exact ih s' h
    | fault r => rw [hs] at h; cases h
    | refused r => rw [hs] at h; cases h

/-- `steps` is the host's run of the machine. -/
theorem core_run_eq_steps (k : Nat) (s : State) : core.run k s = steps k s := by
  induction k generalizing s with
  | zero => rfl
  | succ k ih =>
    have host : ∀ (M : Host.Core) (x : M.State), M.run (k + 1) x =
        match M.step x with
        | .next t => M.run k t
        | .fault r => .fault r
        | .refused r => .refused r := fun _ _ => rfl
    have e := host core s
    rw [steps_succ]
    cases hs : step s with
    | next t =>
      have hc : core.step s = .next t := hs
      rw [hc] at e
      exact e.trans (ih t)
    | fault r =>
      have hc : core.step s = .fault r := hs
      rw [hc] at e
      exact e
    | refused r =>
      have hc : core.step s = .refused r := hs
      rw [hc] at e
      exact e

end Sys2Proof.Machine
end

