-- ==== Sys2Proof/Laws/StepEffect.lean ====
section
/-! SUPPORT. Everything a step that answers a next state can do (spec/40_sequencer.md R103, R104, R107;
spec/60_exceptions.md R158): it raised one of the five faults and changed FAULT alone, or it did a phase and advanced PH. -/

namespace Sys2Proof.Machine

/-- What makes a step raise the fault c (R150 to R153, R158). -/
inductive RaisedBy (s : State) : FaultCause → Prop where
  | phaseRange (ph : s.ph < 1 ∨ 12 < s.ph) : RaisedBy s (.fPhaseRange s.ph)
  | invalidOpcode (o : BitVec 8) (lo : 6 ≤ s.ph) (hi : s.ph ≤ 12)
      (none : selectInstr s.cfg.opcodes s.ci = .error (.invalidOpcode o)) : RaisedBy s (.fInvalidOpcode o)
  | fetchIo (ph : s.ph = 4) (ha : isStorage s.cfg s.sar = false) (hio : isIo s.cfg s.sar = true) :
      RaisedBy s (.uReadIo s.sar)
  | fetchHole (ph : s.ph = 4) (ha : isStorage s.cfg s.sar = false) (hio : isIo s.cfg s.sar = false) :
      RaisedBy s (.uOobRead s.sar)
  | operandIo (i : Instr) (a : BitVec 28) (at9 : s.inPhase 9 i) (reads : ReadsOperand i a)
      (ha : isStorage s.cfg s.sar = false) (hio : isIo s.cfg s.sar = true) : RaisedBy s (.uReadIo s.sar)
  | operandHole (i : Instr) (a : BitVec 28) (at9 : s.inPhase 9 i) (reads : ReadsOperand i a)
      (ha : isStorage s.cfg s.sar = false) (hio : isIo s.cfg s.sar = false) : RaisedBy s (.uOobRead s.sar)
  | storeHole (a : BitVec 28) (at7 : s.inPhase 7 (.stv a)) (ha : isStorage s.cfg (operandWord a) = false)
      (hio : isIo s.cfg (operandWord a) = false) : RaisedBy s (.uOobWrite (operandWord a))

/-- The next states of a step. -/
inductive StepEffect (s : State) : State → Prop where
  | raised (c : FaultCause) (why : RaisedBy s c) : StepEffect s { s with fault := some c }
  | fetched (u : State) (lo : 1 ≤ s.ph) (hi : s.ph ≤ 5) (did : fetchPhase s = .next u) (quiet : u.fault = none)
      (ph : u.ph = s.ph) : StepEffect s { u with ph := nextPhase s.ph }
  | executed (i : Instr) (u : State) (lo : 6 ≤ s.ph) (hi : s.ph ≤ 12) (at_ : s.inPhase s.ph i)
      (did : ExecEffect s i u) (quiet : u.fault = none) (ph : u.ph = s.ph) : StepEffect s { u with ph := nextPhase s.ph }

/-- The end of a phase that raised nothing, as one of the step's effects. -/
theorem stepEffect_of_fetch (s u : State) (lo : 1 ≤ s.ph) (hi : s.ph ≤ 5) (did : fetchPhase s = .next u)
    (quiet : u.fault = none) (ph : u.ph = s.ph) : StepEffect s u.endPhase := by
  rw [u.endPhase_of_none quiet, ph]
  exact .fetched u lo hi did quiet ph

theorem stepEffect_of_exec (s u : State) (i : Instr) (lo : 6 ≤ s.ph) (hi : s.ph ≤ 12) (at_ : s.inPhase s.ph i)
    (did : ExecEffect s i u) (quiet : u.fault = none) (ph : u.ph = s.ph) : StepEffect s u.endPhase := by
  rw [u.endPhase_of_none quiet, ph]
  exact .executed i u lo hi at_ did quiet ph

/-- A fetch phase, ended, is one of the step's effects. -/
theorem fetchPhase_effect (s : State) (he : s.enabled) (lo : 1 ≤ s.ph) (hi : s.ph ≤ 5) :
    ∃ t, endPhase (fetchPhase s) = .next t ∧ StepEffect s t := by
  rcases fetchPhase_cases s ⟨lo, hi⟩ with
    ⟨p, g⟩ | ⟨p, g⟩ | ⟨p, g⟩ | ⟨p, _, g⟩ | ⟨p, ha, hio, g⟩ | ⟨p, ha, hio, g⟩ | ⟨p, g⟩
  case inr.inr.inr.inr.inl => rw [g]; exact ⟨_, rfl, .raised _ (.fetchIo p ha hio)⟩
  case inr.inr.inr.inr.inr.inl => rw [g]; exact ⟨_, rfl, .raised _ (.fetchHole p ha hio)⟩
  all_goals
    refine ⟨_, by rw [g]; rfl, stepEffect_of_fetch s _ lo hi g ?_ rfl⟩
    exact he.2

/-- An execute phase, ended, is one of the step's effects. -/
theorem exec_stepEffect (s : State) (i : Instr) (lo : 6 ≤ s.ph) (hi : s.ph ≤ 12) (at_ : s.inPhase s.ph i) :
    ∃ t, endPhase (exec i s) = .next t ∧ StepEffect s t := by
  obtain ⟨u, e, did⟩ := exec_effect i s
  refine ⟨u.endPhase, by rw [e]; rfl, ?_⟩
  have all := did
  have he : s.fault = none := at_.1.2
  cases did with
  | readIo a ph reads ha hio => exact .raised _ (.operandIo i a ⟨at_.1, ph, at_.2.2⟩ reads ha hio)
  | readHole a ph reads ha hio => exact .raised _ (.operandHole i a ⟨at_.1, ph, at_.2.2⟩ reads ha hio)
  | storeHole a ph h ha hio => subst h; exact .raised _ (.storeHole a ⟨at_.1, ph, at_.2.2⟩ ha hio)
  | rotate k ph h =>
    refine stepEffect_of_exec s _ i lo hi at_ all ?_ ?_
    · rw [s.rotateToZ_writes]; exact he
    · rw [s.rotateToZ_writes]
  | _ => exact stepEffect_of_exec s _ i lo hi at_ all he rfl

/-- A step that answers a next state was enabled and had one of the effects. -/
theorem effect_of_step (s t : State) (h : step s = .next t) : s.enabled ∧ StepEffect s t := by
  rcases step_cases s with ⟨c, _, e⟩ | ⟨_, _, e⟩ | ⟨he, p, e⟩ | ⟨he, lo, hi, e⟩ | ⟨he, lo, hi, i, g, e⟩ |
    ⟨he, lo, hi, o, g, e⟩
  · rw [e] at h; cases h
  · rw [e] at h; cases h
  · rw [e] at h; cases h; exact ⟨he, .raised _ (.phaseRange p)⟩
  · obtain ⟨u, f, did⟩ := fetchPhase_effect s he lo hi
    rw [e, f] at h; cases h; exact ⟨he, did⟩
  · obtain ⟨u, f, did⟩ := exec_stepEffect s i lo hi ⟨he, rfl, g⟩
    rw [e, f] at h; cases h; exact ⟨he, did⟩
  · rw [e] at h; cases h; exact ⟨he, .raised _ (.invalidOpcode o lo hi g)⟩

end Sys2Proof.Machine
end

