-- ==== Sys2Proof/Tests/Slice0.lean ====
section
/-! SUPPORT. The model's own tests: words decoded bit by bit from spec/30_encoding.md, one-step tests with expected values
from spec/95_test_vectors.md and the handlers' examples, the checks of well-formedness, and for each obligation with
hypotheses a witness that meets them. -/

namespace Sys2Proof.Machine.Tests

/-! ### Small states -/

/-- The reset state with one Word at address 0. -/
def holding (w : Word) : State := { State.reset with mem := [(0, w)] }

/-- The reset state with the Word w fetched (R106), in phase p. -/
def fetchedAt (w : Word) (p : Nat) : State := { (State.reset.withFetchWord 32 w.toNat) with ph := p }

/-- The machine with four storage Words (spec/95 P7). -/
def smallConfig : Config := { defaultConfig with memWords := 4 }

/-- What a test looks at in a next state. -/
def look (o : StepOutcome) (f : State → α) : Option α :=
  match o with
  | .next s => some (f s)
  | .fault _ => none
  | .refused _ => none

/-! ### Well-formedness: one ill-formed term for each check -/

theorem test_rrn_value_of_25_bits_is_ill_formed : Instr.wellFormed (.rrn 0x1000000) = false := by decide
theorem test_rrn_value_of_24_bits_is_well_formed : Instr.wellFormed (.rrn 0xFFFFFF) = true := by decide
theorem test_default_map_is_well_formed : defaultOpcodes.wf = true := by decide
theorem test_map_with_equal_numbers_is_refused : OpcodeMap.wf { defaultOpcodes with or := 0x0 } = false := by decide
theorem test_map_with_standard_F_is_refused : OpcodeMap.wf { defaultOpcodes with and := 0xF } = false := by decide
theorem test_map_with_extended_EF_is_refused : OpcodeMap.wf { defaultOpcodes with hlt := 0xEF } = false := by decide
theorem test_default_config_is_well_formed : defaultConfig.wf = true := by decide
theorem test_config_without_memory_is_refused : Config.wf { defaultConfig with memWords := 0 } = false := by decide
theorem test_config_memory_over_boundary_is_refused :
    Config.wf { defaultConfig with memWords := 0x0C000001 } = false := by decide
theorem test_config_char_port_in_storage_is_refused :
    Config.wf { defaultConfig with ioCharPort := 5 } = false := by decide
theorem test_config_int_port_in_storage_is_refused : Config.wf { defaultConfig with ioIntPort := 5 } = false := by decide
theorem test_config_equal_ports_are_refused :
    Config.wf { defaultConfig with ioIntPort := 0x0C000001 } = false := by decide
theorem test_config_bad_map_is_refused :
    Config.wf { defaultConfig with opcodes := { defaultOpcodes with or := 0x0 } } = false := by decide
theorem test_memory_out_of_order_is_ill_formed : ¬ Memory.wf [(3, 1), (2, 1)] := by decide
theorem test_memory_listing_zero_is_ill_formed : ¬ Memory.wf [(3, 0)] := by decide
theorem test_boot_refuses_bad_config :
    State.boot { defaultConfig with memWords := 0 } [] true = .error .badConfig := by decide
theorem test_boot_refuses_load_outside :
    State.boot smallConfig [(4, 1)] true = .error (.loadOutside 4) := by decide

/-! ### Decoding, from R80's patterns written out bit by bit (opcode bits, then value bits) -/

theorem test_decode_and : decode defaultOpcodes 0b00000000000000000000000000010000#32 = .ok (.and 0x10) := by decide
theorem test_decode_or : decode defaultOpcodes 0b00010000000000000000000000010000#32 = .ok (.or 0x10) := by decide
theorem test_decode_xor : decode defaultOpcodes 0b00100000000000000000000000010000#32 = .ok (.xor 0x10) := by decide
theorem test_decode_add : decode defaultOpcodes 0b00110000000000000000000000010000#32 = .ok (.add 0x10) := by decide
theorem test_decode_ldv : decode defaultOpcodes 0b01000000000000000000000000010000#32 = .ok (.ldv 0x10) := by decide
theorem test_decode_stv : decode defaultOpcodes 0b01011100000000000000000000000001#32 = .ok (.stv 0xC000001) := by decide
theorem test_decode_ldc : decode defaultOpcodes 0b01100000000000000000000000000101#32 = .ok (.ldc 5) := by decide
theorem test_decode_jmp : decode defaultOpcodes 0b01111111111111111111111111111111#32 = .ok (.jmp 0xFFFFFFF) := by decide
theorem test_decode_jmn : decode defaultOpcodes 0b10000000000000000000000000000110#32 = .ok (.jmn 6) := by decide
theorem test_decode_eql : decode defaultOpcodes 0b10011100000000000000000000000001#32 = .ok (.eql 0xC000001) := by decide
theorem test_decode_hlt : decode defaultOpcodes 0b11110000101010111100110111101111#32 = .ok .hlt := by decide
theorem test_decode_not : decode defaultOpcodes 0b11110001000000000000000000000000#32 = .ok .not := by decide
theorem test_decode_rar : decode defaultOpcodes 0b11110010000000000000000000000000#32 = .ok .rar := by decide
theorem test_decode_rrn : decode defaultOpcodes 0b11110011111111111111111111111111#32 = .ok (.rrn 0xFFFFFF) := by decide
theorem test_decode_illegal_standard :
    decode defaultOpcodes 0xE1234567 = .error (.invalidOpcode 0xE) := by decide
theorem test_decode_illegal_extended : decode defaultOpcodes 0xFFFFFFFF = .error (.invalidOpcode 0xFF) := by decide
/-- V-ENC of spec/95. -/
theorem test_encode_vectors :
    encode defaultOpcodes (.ldc 5) = 0x60000005 ∧ encode defaultOpcodes (.stv 0xC000001) = 0x5C000001 ∧
    encode defaultOpcodes (.jmn 6) = 0x80000006 ∧ encode defaultOpcodes (.eql 0x10) = 0x90000010 ∧
    encode defaultOpcodes .hlt = 0xF0000000 ∧ encode defaultOpcodes .not = 0xF1000000 ∧
    encode defaultOpcodes .rar = 0xF2000000 ∧ encode defaultOpcodes (.rrn 31) = 0xF300001F := by decide
/-- V-DEC's fields of one illegal extended Word. -/
theorem test_decoder_fields : decodeWord 0xF4ABCDEF = { opcode := 0xF4, value := 0x0ABCDEF, extended := true } := by decide
theorem test_table_word_drops_high_bits : decodeTableWord 4 0xF3000005 = some (.and 5) := by decide
theorem test_with_fetch_word_runs_the_word :
    look (step (State.reset.withFetchWord 32 0x60000005)) (fun s => (s.acc, s.ph)) = some (5, 7) := by decide

/-! ### One step of each instruction (expected values from the rule's example or spec/95's vectors) -/

theorem test_and_phase11 :
    look (exec (.and 0x10) { fetchedAt 0x00000010 11 with x := 0xF0F0F0F0, y := 0x0FF00FF0 }) (·.z) =
      some 0x00F000F0 := by decide
theorem test_or_phase11 :
    look (exec (.or 0x10) { fetchedAt 0x10000010 11 with x := 0xF0F0F0F0, y := 0x0FF00FF0 }) (·.z) =
      some 0xFFF0FFF0 := by decide
theorem test_xor_phase11 :
    look (exec (.xor 0x10) { fetchedAt 0x20000010 11 with x := 0xF0F0F0F0, y := 0x0FF00FF0 }) (·.z) =
      some 0xFF00FF00 := by decide
theorem test_add_phase11_wraps :
    look (exec (.add 0x10) { fetchedAt 0x30000010 11 with x := 0xFFFFFFFF, y := 1 }) (·.z) = some 0 := by decide
theorem test_add_phase12 :
    look (exec (.add 0x10) { fetchedAt 0x30000010 12 with acc := 7, z := 0x80000000 }) (·.acc) =
      some 0x80000000 := by decide
theorem test_eql_phase11_equal :
    look (exec (.eql 0x10) { fetchedAt 0x90000010 11 with x := 5, y := 5 }) (·.z) = some 0xFFFFFFFF := by decide
theorem test_eql_phase11_distinct :
    look (exec (.eql 0x10) { fetchedAt 0x90000010 11 with x := 0x80000000, y := 0 }) (·.z) = some 0 := by decide
/-- V-FAULT's row `ADD 0x0FFFFFFF`: the phase commits nothing and PH stays 9. -/
theorem test_add_phase9_reads_io :
    look (step { fetchedAt 0x3FFFFFFF 9 with sar := 0x0FFFFFFF }) (fun s => (s.fault, s.ph, s.sir)) =
      some (some (.uReadIo 0x0FFFFFFF), 9, 0x3FFFFFFF) := by decide
theorem test_ldv_phase9 :
    look (exec (.ldv 0x10) { fetchedAt 0x40000010 9 with sar := 0x10, mem := [(0x10, 0xDEADBEEF)] }) (·.sir) =
      some 0xDEADBEEF := by decide
theorem test_ldv_phase10 :
    look (exec (.ldv 0x10) { fetchedAt 0x40000010 10 with sir := 0xDEADBEEF }) (·.acc) = some 0xDEADBEEF := by decide
theorem test_stv_phase7_character :
    look (exec (.stv 0xC000001) { fetchedAt 0x5C000001 7 with sir := 0x141 }) (fun s => (s.out, s.sar)) =
      some ([.char 0x41], 0x0C000001) := by decide
theorem test_stv_phase7_hole_commits_nothing :
    look (step { fetchedAt 0x50000100 7 with sir := 7 }) (fun s => (s.fault, s.sar, s.ph)) =
      some (some (.uOobWrite 0x100), 0, 7) := by decide
/-- V-IO: the most negative number, and the discarded store. -/
theorem test_memWrite_integer_port :
    (State.reset.memWrite 0x0C000002 0x80000000).toOption.map (·.out) = some [.int (-2147483648)] := by decide
theorem test_memWrite_discarded :
    (State.reset.memWrite 0x0C000000 1).toOption.map (fun s => (s.diag, s.out, s.mem)) =
      some ([0x0C000000], [], []) := by decide
theorem test_memWrite_zero_is_not_listed :
    ((holding 5).memWrite 0 0).toOption.map (·.mem) = some [] := by decide
theorem test_ldc_phase6 : look (exec (.ldc 0xFFFFFFF) (fetchedAt 0x6FFFFFFF 6)) (·.acc) = some 0x0FFFFFFF := by decide
theorem test_jmp_phase6 : look (exec (.jmp 7) (fetchedAt 0x70000007 6)) (·.iar) = some 7 := by decide
theorem test_jmn_taken :
    look (exec (.jmn 4) { fetchedAt 0x80000004 6 with acc := 0x80000000 }) (·.iar) = some 4 := by decide
theorem test_jmn_not_taken :
    look (exec (.jmn 4) { fetchedAt 0x80000004 6 with acc := 0x7FFFFFFF, iar := 2 }) (·.iar) = some 2 := by decide
theorem test_not_phase11 :
    look (exec .not { fetchedAt 0xF1000000 11 with x := 0x0F0F0F0F }) (·.z) = some 0xF0F0F0F0 := by decide
theorem test_rar_phase10_and_11 :
    look (exec .rar (fetchedAt 0xF2000000 10)) (·.y) = some 1 ∧
    look (exec .rar { fetchedAt 0xF2000000 11 with x := 3, y := 1 }) (·.z) = some 0x80000001 := by decide
theorem test_rrn_phase11 :
    look (exec (.rrn 8) { fetchedAt 0xF3000008 11 with x := 0x12345678, y := 8 }) (·.z) = some 0x78123456 := by decide
theorem test_rrn_over_32_draws :
    look (exec (.rrn 33) { fetchedAt 0xF3000021 11 with x := 1, y := 33 }) (·.rotDraws) = some 1 := by decide
theorem test_hlt_phase11_and_12 :
    look (step (fetchedAt 0xF0000000 11)) (fun s => (s.run, s.ph)) = some (true, 12) ∧
    look (step (fetchedAt 0xF0000000 12)) (fun s => (s.run, s.ph)) = some (false, 1) := by decide
/-- V-FAULT's first row, V-PHASE, V-RUN0. -/
theorem test_illegal_opcode :
    look (step (fetchedAt 0xA0000001 6)) (fun s => (s.fault, s.ph)) = some (some (.fInvalidOpcode 0xA), 6) := by decide
theorem test_phase_range :
    look (step (fetchedAt 0 13)) (fun s => (s.fault, s.ph)) = some (some (.fPhaseRange 13), 13) := by decide
theorem test_fetch_phase4 :
    look (step { holding 0x60000005 with ph := 4, z := 1 }) (fun s => (s.iar, s.sir, s.ci.value)) =
      some (1, 0x60000005, 5) := by decide
/-- V-ROT. -/
theorem test_rotr_vectors :
    rotr 0x12345678 31 = 0x2468ACF0 ∧ rotr 0xDEADBEEF 12 = 0xEEFDEADB ∧ rotr 0xDEADBEEF 20 = 0xDBEEFDEA ∧
    rotr 0x12345678 32 = 0x12345678 := by decide
/-- P3's eight console bytes. -/
theorem test_console_of_P3 :
    renderOut [0x0A] [.char 0x41, .int 42, .int (-1)] = [0x41, 0x0A, 0x34, 0x32, 0x0A, 0x2D, 0x31, 0x0A] := by decide
theorem test_snapshot_is_clamped :
    State.snapshotMemory { (State.create smallConfig) with mem := [(3, 9)] } 2 100 = [0, 9] := by decide

/-! ### Witnesses: a state and operands meeting the hypotheses of each obligation that has some -/

/-- A state whose memory, output and latches are plain enough to meet the invariant. -/
theorem inv_of_plain (s : State) (phase : 1 ≤ s.ph ∧ s.ph ≤ 12) (form : s.mem.wf) (bound : s.mem.within s.cfg.memWords)
    (out : s.out = []) (sir : s.ph = 5 → s.ci = decodeWord s.sir) (ir : 6 ≤ s.ph → s.ci = decodeWord s.ir)
    (early : s.ph ≤ 6) (late : s.ph = 1 ∨ 5 ≤ s.ph) : s.Inv :=
  ⟨phase, form, bound, by simp [out], sir, ir, fun h => by omega, fun h => by omega, fun h => by omega,
    fun h => by omega⟩

theorem inv_at (w : Word) (h : w ≠ 0) (p : Nat) (hp : p = 5 ∨ p = 6) : (fetchedAt w p).Inv := by
  have word : tableWord 32 w.toNat = w := BitVec.eq_of_toNat_eq (by simp [tableWord]; exact w.isLt)
  have nonzero : ¬ w = 0#32 := h
  have mem : (fetchedAt w p).mem = [(0, w)] := by
    simp [fetchedAt, State.withFetchWord, word, State.fetched, State.afterFetch, State.placeWord, State.reset,
      State.create, isStorage, defaultConfig, entryPoint, Memory.write, Memory.insert, nonzero]
  refine inv_of_plain _ ?_ ?_ ?_ rfl (fun _ => rfl) (fun _ => rfl) ?_ ?_
  · show 1 ≤ p ∧ p ≤ 12; omega
  · rw [mem]; simpa [Memory.wf] using h
  · rw [mem]; intro c hc; rw [List.mem_singleton.mp hc]; show 0 < 256; omega
  · show p ≤ 6; omega
  · show p = 1 ∨ 5 ≤ p; omega

theorem witness_DecoderSplitsEveryWord :
    (0x60000005#32 >>> 28 ≠ 0xF) ∧ (0xF300001F#32 >>> 28 = 0xF) ∧
    ({ holding 0x60000005 with ph := 4 }.enabled ∧ isStorage defaultConfig (holding 0x60000005).sar = true) := by decide
theorem witness_EncodingIsInvertedByDecoder :
    defaultOpcodes.wf = true ∧ Mnemonic.isExtended .ldc = false ∧ Mnemonic.isExtended .rrn = true := by decide
theorem witness_DecodeEncodeRoundTrip :
    defaultOpcodes.wf = true ∧ Instr.wellFormed (.rrn 0xFFFFFF) = true ∧ Instr.wellFormed (.add 0xFFFFFFF) = true := by
  decide
theorem witness_DecodedWordEncodesBack :
    defaultOpcodes.wf = true ∧ decode defaultOpcodes 0xF0ABCDEF = .ok .hlt ∧
    decode defaultOpcodes 0xF3FFFFFF = .ok (.rrn 0xFFFFFF) := by decide
theorem witness_StepEnabledExactlyWhenRunning :
    State.reset.run = true ∧ State.reset.fault = none ∧ { State.reset with run := false }.run = false ∧
    { State.reset with fault := some (.uReadIo 3) }.fault = some (.uReadIo 3) ∧
    look (step (fetchedAt 0xF0000000 12)) (·.run) = some false := by decide
theorem witness_StepRunsDecodedInstruction :
    (fetchedAt 0x30000010 12).inPhase 12 (.add 0x10) ∧ (holding 0x30000010).atInstr 0x30000010 (.add 0x10) := by decide
theorem witness_FetchPhaseTransfers :
    (fetchedAt 0x60000005 1).enabled ∧ (fetchedAt 0x60000005 2).enabled ∧ (fetchedAt 0x60000005 1).ph = 1 ∧
    (fetchedAt 0x60000005 5).enabled ∧ (fetchedAt 0x60000005 5).Inv :=
  ⟨by decide, by decide, by decide, by decide, inv_at _ (by decide) 5 (.inl rfl)⟩
theorem witness_FetchAddsModulo :
    { fetchedAt 0x60000005 3 with x := 0xFFFFFFFF, y := 1 }.enabled ∧ (fetchedAt 0x60000005 3).ph = 3 := by decide
theorem witness_FetchReadsAtSar :
    { fetchedAt 1 4 with sar := 255 }.enabled ∧ { fetchedAt 1 4 with sar := 256 }.enabled ∧
    { fetchedAt 1 4 with sar := 0x0C000000 }.ph = 4 ∧ (255#32).toNat < defaultConfig.memWords ∧
    (defaultConfig.memWords ≤ (256#32).toNat ∧ (256#32).toNat < defaultConfig.ioBoundary.toNat) ∧
    defaultConfig.ioBoundary.toNat ≤ (0x0C000000#32).toNat := by decide
theorem witness_FetchNetEffect : (holding 0x60000005).atWord 0x60000005 := by decide
theorem witness_WithFetchWordIsTheFetch :
    State.reset.enabled ∧ State.reset.ph = 1 ∧ isStorage State.reset.cfg State.reset.iar = true := by decide
theorem witness_FetchClobbersScratchRegisters : (holding 0xF2000000).atWord 0xF2000000 := by decide
theorem witness_CounterAdvancesAndWraps :
    (fetchedAt 0xF0000000 12).inPhase 12 .hlt ∧ look (step (fetchedAt 0xF2000000 12)) (·.fault) = some none := by decide
theorem witness_FaultCommitsNothing :
    look (step { fetchedAt 0x40000100 9 with sar := 0x100 }) (·.fault) = some (some (.uOobRead 0x100)) := by decide
theorem witness_FaultsByPhase :
    look (step (fetchedAt 0 0)) (·.fault) = some (some (.fPhaseRange 0)) ∧
    look (step (fetchedAt 0xFF000000 6)) (·.fault) = some (some (.fInvalidOpcode 0xFF)) ∧
    look (step { fetchedAt 1 4 with sar := 0x0C000000 }) (·.fault) = some (some (.uReadIo 0x0C000000)) ∧
    look (step { fetchedAt 0x90000100 9 with sar := 0x0BFFFFFF }) (·.fault) = some (some (.uOobRead 0x0BFFFFFF)) ∧
    look (step (fetchedAt 0x5BFFFFFF 7)) (·.fault) = some (some (.uOobWrite 0x0BFFFFFF)) := by decide
theorem witness_FaultsByPhase_inv : (fetchedAt 0xFF000000 6).Inv := inv_at _ (by decide) 6 (.inr rfl)
theorem witness_TwelvePhasesPerInstruction :
    State.reset.enabled ∧ State.reset.ph = 1 ∧ look (steps 12 State.reset) (·.fault) = some none ∧
    look (steps 6 (holding 0xA0000000)) (·.fault) = some (some (.fInvalidOpcode 0xA)) := by decide
theorem witness_IllegalOpcodeFaultsInPhaseSix :
    (holding 0xA0000001).atWord 0xA0000001 ∧
    ∀ M ∈ Mnemonic.all, (holding 0xA0000001).cfg.opcodes.opc M ≠ (decodeWord 0xA0000001).opcode := by decide
theorem witness_FetchOutsideStorageFaults :
    { State.reset with iar := 256 }.enabled ∧ { State.reset with iar := 0xFFFFFFFF }.ph = 1 ∧
    State.reset.cfg.memWords ≤ (256#32).toNat ∧ State.reset.cfg.memWords ≤ (0xFFFFFFFF#32).toNat := by decide
theorem witness_PhaseRangeFault : (fetchedAt 0 0).enabled ∧ (fetchedAt 0 13).enabled ∧ (fetchedAt 0x60000005 6).Inv :=
  ⟨by decide, by decide, inv_at _ (by decide) 6 (.inr rfl)⟩
theorem witness_MemReadByRegion :
    (255#32).toNat < State.reset.cfg.memWords ∧ State.reset.cfg.memWords ≤ (256#32).toNat ∧
    (0x0BFFFFFF#32).toNat < State.reset.cfg.ioBoundary.toNat ∧
    State.reset.cfg.ioBoundary.toNat ≤ (0x0C000000#32).toNat := by decide
theorem witness_MemWriteByRegion :
    State.reset.cfg.ioBoundary.toNat ≤ State.reset.cfg.ioCharPort.toNat ∧
    State.reset.cfg.ioIntPort ≠ State.reset.cfg.ioCharPort ∧
    (0x0C000003#32 ≠ State.reset.cfg.ioCharPort ∧ 0x0C000003#32 ≠ State.reset.cfg.ioIntPort) ∧
    State.reset.cfg.memWords ≤ (0x0BFFFFFF#32).toNat ∧ (0x0BFFFFFF#32).toNat < State.reset.cfg.ioBoundary.toNat := by
  decide
theorem witness_StoredWordIsFetchedNext :
    (holding 0x50000001).atInstr 0x50000001 (.stv 1) ∧
    isStorage (holding 0x50000001).cfg ((1 : BitVec 28).setWidth 32) = true ∧
    (1 : BitVec 28).setWidth 32 = (holding 0x50000001).iar + 1 := by decide
theorem witness_AluGroupPhases :
    aluMeaning (.add 0x10) = some (0x10, fun x y => x + y) ∧ (fetchedAt 0x30000010 9).ph = 9 ∧
    (0x10#32).toNat < (fetchedAt 0x30000010 9).cfg.memWords ∧
    (fetchedAt 0x30000010 9).cfg.memWords ≤ (0x100#32).toNat := ⟨rfl, by decide⟩
theorem witness_LdvPhases :
    (fetchedAt 0x40000010 9).ph = 9 ∧ (fetchedAt 0x40000010 9).sar.toNat < (fetchedAt 0x40000010 9).cfg.memWords ∧
    (fetchedAt 0x40000010 9).cfg.memWords ≤ { fetchedAt 0x40000010 9 with sar := 256 }.sar.toNat := by decide
theorem witness_StvPhases :
    (fetchedAt 0x50000010 7).ph = 7 ∧ ((255 : BitVec 28).setWidth 32).toNat < (fetchedAt 0 7).cfg.memWords ∧
    (fetchedAt 0 7).cfg.memWords ≤ ((256 : BitVec 28).setWidth 32).toNat ∧
    ((256 : BitVec 28).setWidth 32).toNat < (fetchedAt 0 7).cfg.ioBoundary.toNat ∧
    (0xC000001 : BitVec 28).setWidth 32 = (fetchedAt 0 7).cfg.ioCharPort ∧
    (0xC000002 : BitVec 28).setWidth 32 = (fetchedAt 0 7).cfg.ioIntPort ∧
    (0xC000000 : BitVec 28).setWidth 32 ≠ (fetchedAt 0 7).cfg.ioCharPort ∧
    (fetchedAt 0 7).cfg.ioBoundary.toNat ≤ ((0xC000000 : BitVec 28).setWidth 32).toNat := by decide
theorem witness_PortStoresEmitOneEvent :
    (fetchedAt 0x5C000001 7).ph = 7 ∧ (fetchedAt 0 7).cfg.memWords ≤ ((0xC000001 : BitVec 28).setWidth 32).toNat ∧
    (fetchedAt 0 7).cfg.ioBoundary.toNat ≤ ((0xC000001 : BitVec 28).setWidth 32).toNat ∧
    (0xC000001 : BitVec 28).setWidth 32 = (fetchedAt 0 7).cfg.ioCharPort ∧
    (0xC000002 : BitVec 28).setWidth 32 = (fetchedAt 0 7).cfg.ioIntPort ∧
    (0xC000002 : BitVec 28).setWidth 32 ≠ (fetchedAt 0 7).cfg.ioCharPort := by decide
theorem witness_LdcJmpJmnHltPhases :
    (fetchedAt 0x80000004 6).ph = 6 ∧ (fetchedAt 0xF0000000 12).ph = 12 ∧
    { fetchedAt 0x80000004 6 with acc := 0x80000000 }.acc.toInt < 0 ∧ 0 ≤ (fetchedAt 0x80000004 6).acc.toInt := by decide
theorem witness_NotRarRrnPhases :
    rotateMeaning .rar = some 1 ∧ rotateMeaning (.rrn 33) = some 33 ∧
    { fetchedAt 0xF3000021 11 with y := 32 }.y.toNat ≤ 32 ∧ 32 < { fetchedAt 0xF3000021 11 with y := 33 }.y.toNat := by
  decide
theorem witness_AluGroupNetEffect :
    ((holding 0x00000010).atInstr 0x00000010 (.and 0x10) ∧ (holding 0x10000010).atInstr 0x10000010 (.or 0x10) ∧
      (holding 0x20000010).atInstr 0x20000010 (.xor 0x10) ∧ (holding 0x30000010).atInstr 0x30000010 (.add 0x10) ∧
      (holding 0x90000010).atInstr 0x90000010 (.eql 0x10)) ∧
    ((0x10 : BitVec 28).setWidth 32).toNat < State.reset.cfg.memWords ∧
    aluMeaning (.or 0x10) = some (0x10, fun x y => x ||| y) := ⟨by decide, by decide, rfl⟩
theorem witness_LdvNetEffect :
    (holding 0x400000FF).atInstr 0x400000FF (.ldv 0xFF) ∧
    ((0xFF : BitVec 28).setWidth 32).toNat < (holding 0x400000FF).cfg.memWords := by decide
theorem witness_OperandReadOutsideStorageFaults :
    (holding 0x40000100).atInstr 0x40000100 (.ldv 0x100) ∧ (holding 0x3C000001).atInstr 0x3C000001 (.add 0xC000001) ∧
    (holding 0x40000100).cfg.memWords ≤ ((0x100 : BitVec 28).setWidth 32).toNat := by decide
theorem witness_StvToStorageNetEffect :
    (holding 0x500000FF).atInstr 0x500000FF (.stv 0xFF) ∧
    ((0xFF : BitVec 28).setWidth 32).toNat < (holding 0x500000FF).cfg.memWords := by decide
theorem witness_StvToIoNetEffect :
    (holding 0x5C000001).atInstr 0x5C000001 (.stv 0xC000001) ∧ (holding 0x5C000002).atInstr 0x5C000002 (.stv 0xC000002) ∧
    (holding 0x5FFFFFFF).atInstr 0x5FFFFFFF (.stv 0xFFFFFFF) ∧
    (holding 0).cfg.ioBoundary.toNat ≤ ((0xC000001 : BitVec 28).setWidth 32).toNat ∧
    (holding 0).cfg.memWords ≤ ((0xC000001 : BitVec 28).setWidth 32).toNat := by decide
theorem witness_StvToHoleFaults :
    (holding 0x50000100).atInstr 0x50000100 (.stv 0x100) ∧
    (holding 0x50000100).cfg.memWords ≤ ((0x100 : BitVec 28).setWidth 32).toNat ∧
    ((0x100 : BitVec 28).setWidth 32).toNat < (holding 0x50000100).cfg.ioBoundary.toNat := by decide
theorem witness_LdcNetEffect : (holding 0x6FFFFFFF).atInstr 0x6FFFFFFF (.ldc 0xFFFFFFF) := by decide
theorem witness_JumpNetEffect :
    (holding 0x70000007).atInstr 0x70000007 (.jmp 7) ∧
    { holding 0x80000004 with acc := 0x80000000 }.atInstr 0x80000004 (.jmn 4) := by decide
theorem witness_NotNetEffect : (holding 0xF1000000).atInstr 0xF1000000 .not := by decide
theorem witness_RotateNetEffect :
    (holding 0xF2000000).atInstr 0xF2000000 .rar ∧ (holding 0xF3000020).atInstr 0xF3000020 (.rrn 32) ∧
    rotateMeaning (.rrn 32) = some 32 ∧ (32#32).toNat ≤ 32 := by decide
theorem witness_RotateOver32Completes :
    (holding 0xF3000021).atInstr 0xF3000021 (.rrn 33) ∧ 32 < (33 : BitVec 28).toNat := by decide
theorem witness_HltNetEffect : (holding 0xF0000000).atInstr 0xF0000000 .hlt := by decide
theorem witness_RegisterFrame :
    (look (exec (.stv 0x10) (fetchedAt 0x50000010 7)) (·.ph)).isSome = true ∧
    (look (exec .hlt (fetchedAt 0xF0000000 12)) (·.ph)).isSome = true ∧
    (look (exec .not (fetchedAt 0xF1000000 11)) (·.ph)).isSome = true := by decide
theorem witness_MemoryFrame :
    look (exec (.stv 0x10) { fetchedAt 0x50000010 7 with sir := 9 }) (fun s => s.mem.read 0x10) = some 9 ∧
    0x11 ≠ (operandWord 0x10).toNat ∧ (fetchedAt 0x50000010 8).ph ≠ 7 ∧
    (look (exec (.add 0x10) (fetchedAt 0x30000010 9)) (·.ph)).isSome = true := by decide
theorem witness_StepKeepsInvariant :
    (fetchedAt 0x5C000002 6).Inv ∧ look (step (fetchedAt 0x5C000002 6)) (·.ph) = some 7 :=
  ⟨inv_at _ (by decide) 6 (.inr rfl), by decide⟩
theorem witness_CiStaysDecodingOfIr :
    (fetchedAt 0x60000005 6).CiMatchesIr ∧ look (step (fetchedAt 0x60000005 6)) (·.ph) = some 7 :=
  ⟨⟨fun _ => rfl, fun _ => rfl⟩, by decide⟩
theorem witness_OnlyFetchAndJumpsWriteIar :
    look (step { fetchedAt 0x60000005 4 with z := 9 }) (·.iar) = some 9 ∧ (fetchedAt 0x60000005 4).iar ≠ 9 ∧
    look (step (fetchedAt 0x70000007 6)) (·.iar) = some 7 ∧ (fetchedAt 0x70000007 6).iar ≠ 7 ∧
    look (step { fetchedAt 0x80000007 6 with acc := 0x80000000 }) (·.iar) = some 7 := by decide
theorem witness_AccumulatorWriters :
    look (step (fetchedAt 0x60000005 6)) (·.acc) = some 5 ∧ (fetchedAt 0x60000005 6).acc ≠ 5 ∧
    look (step { fetchedAt 0x40000000 10 with sir := 5 }) (·.acc) = some 5 ∧
    look (step { fetchedAt 0xF1000000 12 with z := 5 }) (·.acc) = some 5 := by decide
theorem witness_OnlyStvWritesMemory :
    look (step { fetchedAt 0x50000010 7 with sir := 9 }) (·.mem) = some [(0, 0x50000010), (0x10, 9)] ∧
    (fetchedAt 0x50000010 7).mem ≠ [(0, 0x50000010), (0x10, 9)] := by decide
theorem witness_OutAndDiagOnlyGrow :
    look (step (fetchedAt 0x5C000002 7)) (·.out) = some [.int 0x5C000002] ∧
    look (step (fetchedAt 0x5C000003 7)) (·.diag) = some [0x0C000003] := by decide
theorem witness_ParametersFixedAndDrawsOnlyByRotates :
    look (step { fetchedAt 0xF3000021 11 with y := 33 }) (·.rotDraws) = some 1 ∧
    (fetchedAt 0xF3000021 11).rotDraws ≠ 1 := by decide
theorem witness_RotateLaws : (32 : Nat) ≤ 32 ∧ (31 : Nat) < 32 ∧ (12 : Nat) + 20 ≤ 32 := by decide
theorem witness_ConsoleRendering : ((-42 : Int) < 0) ∧ (0 : Int) ≤ 42 ∧ decimal 42 = [0x34, 0x32] := by decide
theorem witness_BootLoadsTheImage :
    smallConfig.wf = true ∧ (∀ p ∈ [(3, 7#32)], p.1 < smallConfig.memWords) ∧
    (State.boot smallConfig [(3, 7)] false).toOption.map (·.mem) = some [(3, 7)] := by decide
theorem witness_SnapshotsShowTheState : State.reset.cfg.memWords ≤ 256 ∧ 254 + 1 < min (254 + 9) State.reset.cfg.memWords := by
  decide
theorem witness_RunLoopEndsAsSpecified :
    runLoop 1 { State.reset with run := false } = .halted { State.reset with run := false } ∧
    State.reset.fault = none ∧ { State.reset with run := false }.ph = 1 ∧
    runLoop 0 State.reset = .running State.reset := by decide
/-- A run that faults, in two steps of the loop. -/
theorem witness_RunLoopEndsAsSpecified_faulted :
    runLoop 2 (fetchedAt 0xA0000001 6) =
      .faulted (.fInvalidOpcode 0xA) { fetchedAt 0xA0000001 6 with fault := some (.fInvalidOpcode 0xA) } := by decide

end Sys2Proof.Machine.Tests
end

section
/-! SUPPORT. The decoder's two formats, read off the Word by shifts and masks (spec/30_encoding.md R77), and phase 4's
transfers from a storage address (spec/40_sequencer.md R99). -/

namespace Sys2Proof

/-- The bits from k up, as a Word, are the Word shifted down by k. -/
theorem highBits_setWidth (w : Word) (k : Nat) : (w.extractLsb' k (32 - k)).setWidth 32 = w >>> k := by
  ext i hi
  have inField : w.getLsbD (k + i) = true → i < 32 - k := fun h => by
    have := BitVec.lt_of_getLsbD h
    omega
  simpa using inField

/-- The bits below n, as a Word, are the Word under the mask of n ones. -/
theorem lowBits_setWidth (w : Word) (n : Nat) :
    (w.extractLsb' 0 n).setWidth 32 = w &&& BitVec.ofNat 32 (2 ^ n - 1) := by
  apply BitVec.eq_of_getLsbD_eq
  intro i hi
  simp only [BitVec.getLsbD_setWidth, BitVec.getLsbD_extractLsb', BitVec.getLsbD_and, BitVec.getLsbD_ofNat,
    Nat.testBit_two_pow_sub_one, hi, Nat.zero_add, decide_true, Bool.true_and, Bool.and_comm]

/-- A Word is extended exactly when its top four bits are 0xF (R76, R79). -/
theorem isExtendedWord_iff (w : Word) : isExtendedWord w = true ↔ w >>> 28 = 0xF := by
  have top : (topNibble w).setWidth 32 = w >>> 28 := highBits_setWidth w 28
  rw [isExtendedWord, beq_iff_eq, ← top]
  constructor
  · intro h
    rw [h]
    rfl
  · intro h
    simpa [BitVec.setWidth_setWidth] using congrArg (BitVec.setWidth 4) h

/-- A Word whose top nibble is not 0xF: the opcode is that nibble, the value the low 28 bits (R77). -/
theorem decodeWord_standard (w : Word) (h : w >>> 28 ≠ 0xF) :
    (decodeWord w).opcode.setWidth 32 = w >>> 28 ∧ (decodeWord w).value.setWidth 32 = w &&& 0x0FFFFFFF ∧
      (decodeWord w).extended = false := by
  have e : decodeWord w = { opcode := (topNibble w).setWidth 8, value := w.extractLsb' 0 28, extended := false } :=
    if_neg (mt (isExtendedWord_iff w).1 h)
  rw [e]
  refine ⟨?_, lowBits_setWidth w 28, rfl⟩
  rw [BitVec.setWidth_setWidth (by decide)]
  exact highBits_setWidth w 28

/-- A Word whose top nibble is 0xF: the opcode is the top byte, the value the low 24 bits (R77). -/
theorem decodeWord_extended (w : Word) (h : w >>> 28 = 0xF) :
    (decodeWord w).opcode.setWidth 32 = w >>> 24 ∧ (decodeWord w).value.setWidth 32 = w &&& 0x00FFFFFF ∧
      (decodeWord w).extended = true := by
  have e : decodeWord w =
      { opcode := w.extractLsb' 24 8, value := (w.extractLsb' 0 24).setWidth 28, extended := true } :=
    if_pos ((isExtendedWord_iff w).2 h)
  rw [e]
  refine ⟨highBits_setWidth w 24, ?_, rfl⟩
  rw [BitVec.setWidth_setWidth (by decide)]
  exact lowBits_setWidth w 24

end Sys2Proof

namespace Sys2Proof.Machine

/-- Phase 4 from a storage address: IAR takes Z, CI and SIR take the Word at SAR, PH advances, and nothing else changes
(R99, R103). -/
theorem step_phase4_storage (s : State) (he : s.enabled) (hp : s.ph = 4) (ha : isStorage s.cfg s.sar = true) :
    step s = .next { s with
      iar := s.z, ci := decodeWord (s.mem.read s.sar.toNat), sir := s.mem.read s.sar.toNat, ph := 5 } := by
  have hf : s.fault = none := he.2
  simp [step_of_enabled s he, phaseStep, fetchPhase, fetchRead, s.memRead_storage s.sar ha, hp,
    State.endPhase_of_none, hf, nextPhase]

/-- Settles O1: the two formats are the decoder's two cases, and phase 4 decodes the Word it reads. -/
theorem decoderSplitsEveryWord : Obligations.DecoderSplitsEveryWord := by
  refine ⟨decodeWord_standard, decodeWord_extended, by decide, by decide, ?_⟩
  intro s he hp ha
  exact ⟨_, step_phase4_storage s he hp ha, rfl⟩

end Sys2Proof.Machine
end

section
/-! SUPPORT. The sequencer: when a step answers, the counter and RUN along it (spec/40_sequencer.md R95, R103, R104), and
the twelve phases of an instruction (R109). -/

namespace Sys2Proof.Machine

/-- An enabled step answers a next state (R95). -/
theorem step_next_of_enabled (s : State) (he : s.enabled) : ∃ t, step s = .next t := by
  have ⟨hr, hf⟩ := he
  rcases step_cases s with ⟨c, hc, _⟩ | ⟨_, hh, _⟩ | ⟨_, _, e⟩ | ⟨_, lo, hi, e⟩ | ⟨_, lo, hi, i, g, e⟩ |
    ⟨_, _, _, o, _, e⟩
  · simp [hf] at hc
  · simp [hr] at hh
  · exact ⟨_, e⟩
  · obtain ⟨t, f, _⟩ := fetchPhase_effect s he lo hi
    exact ⟨t, e.trans f⟩
  · obtain ⟨t, f, _⟩ := exec_stepEffect s i lo hi ⟨he, rfl, g⟩
    exact ⟨t, e.trans f⟩
  · exact ⟨_, e⟩

/-- A stopped machine takes no step (R95). -/
theorem step_of_faulted (s : State) (c : FaultCause) (h : s.fault = some c) : step s = .fault (.faulted c) := by
  simp [step, stepWith, h]

/-- A fetch phase that raises nothing is followed by its successor (R103). -/
theorem step_of_fetchPhase (s u : State) (he : s.enabled) (lo : 1 ≤ s.ph) (hi : s.ph ≤ 5)
    (did : fetchPhase s = .next u) (quiet : u.fault = none) : step s = .next { u with ph := nextPhase u.ph } := by
  have inRange : ¬ (s.ph < 1 ∨ 12 < s.ph) := by omega
  rw [step_of_enabled s he, phaseStep, if_neg inRange, if_pos hi, did, endPhase_next, u.endPhase_of_none quiet]

/-- In an execute phase the step is the selected handler's work and the end of the phase (R101, R107). -/
theorem step_of_inPhase (s : State) (p : Nat) (i : Instr) (lo : 6 ≤ p) (hi : p ≤ 12) (h : s.inPhase p i) :
    step s = endPhase (exec i s) := by
  obtain ⟨he, rfl, hs⟩ := h
  have inRange : ¬ (s.ph < 1 ∨ 12 < s.ph) := by omega
  have notFetch : ¬ s.ph ≤ 5 := by omega
  rw [step_of_enabled s he, phaseStep, if_neg inRange, if_neg notFetch, executePhase, hs]

/-- A step either raises nothing and advances the counter, or latches a fault and changes nothing else (R103, R104). -/
theorem step_advances_or_raises (s t : State) (h : step s = .next t) :
    (t.fault = none ∧ t.ph = nextPhase s.ph) ∨ ∃ c, t = { s with fault := some c } := by
  obtain ⟨_, effect⟩ := effect_of_step s t h
  cases effect with
  | raised c _ => exact .inr ⟨c, rfl⟩
  | fetched u _ _ _ quiet _ => exact .inl ⟨quiet, rfl⟩
  | executed i u _ _ _ _ quiet _ => exact .inl ⟨quiet, rfl⟩

/-- No fetch phase writes RUN (R39). -/
theorem fetchPhase_keeps_run (s u : State) (lo : 1 ≤ s.ph) (hi : s.ph ≤ 5) (did : fetchPhase s = .next u) :
    u.run = s.run := by
  rcases fetchPhase_cases s ⟨lo, hi⟩ with
    ⟨_, g⟩ | ⟨_, g⟩ | ⟨_, g⟩ | ⟨_, _, g⟩ | ⟨_, _, _, g⟩ | ⟨_, _, _, g⟩ | ⟨_, g⟩
  all_goals
    rw [g] at did
    cases did
    rfl

/-- No execute phase before the twelfth writes RUN (R24, R145). -/
theorem ExecEffect.keeps_run {s u : State} {i : Instr} (did : ExecEffect s i u) (hp : s.ph ≠ 12) : u.run = s.run := by
  cases did with
  | halt ph _ => exact absurd ph hp
  | rotate => rw [s.rotateToZ_writes]
  | _ => rfl

/-- No step before phase 12 writes RUN (R24, R145). -/
theorem step_keeps_run (s t : State) (h : step s = .next t) (hp : s.ph ≠ 12) : t.run = s.run := by
  obtain ⟨_, effect⟩ := effect_of_step s t h
  cases effect with
  | raised => rfl
  | fetched u lo hi did _ _ => exact fetchPhase_keeps_run s u lo hi did
  | executed i u _ _ _ did _ _ => exact did.keeps_run hp

/-- HLT's phase 12: the machine rests with RUN = false and PH = 1 (R103, R145). -/
theorem step_hlt_phase12 (s : State) (h : s.inPhase 12 .hlt) : step s = .next { s with run := false, ph := 1 } := by
  have ⟨⟨_, hf⟩, hp, _⟩ := h
  have halts : execHlt s = .next { s with run := false } := by
    simpa [hp] using execHlt_cases s
  rw [step_of_inPhase s 12 .hlt (by decide) (by decide) h, exec_hlt, halts, endPhase_next,
    State.endPhase_of_none { s with run := false } hf, hp]
  rfl

/-- Settles O15: a step that did not raise advanced the counter, and HLT's phase 12 wraps it like any other. -/
theorem counterAdvancesAndWraps : Obligations.CounterAdvancesAndWraps := by
  constructor
  · intro s t h quiet
    rcases step_advances_or_raises s t h with ⟨_, ph⟩ | ⟨c, rfl⟩
    · exact ph
    · cases quiet
  · intro s h
    exact ⟨_, step_hlt_phase12 s h, rfl, rfl⟩

/-- The step after k steps is the (k + 1)-th. -/
theorem steps_succ_of_next (k : Nat) (s t : State) (h : steps k s = .next t) : steps (k + 1) s = step t := by
  rw [steps_add k 1 s t h, steps_succ]
  cases step t <;> rfl

/-- No run goes on from a stopped machine (R95). -/
theorem steps_of_faulted (k : Nat) (s : State) (c : FaultCause) (h : s.fault = some c) :
    steps (k + 1) s = .fault (.faulted c) := by
  rw [steps_succ, step_of_faulted s c h]

/-- How a run of k steps from phase 1 of s stands within one instruction (R109): it is through k phases, RUN still true
before the twelfth, or one of its steps, the j-th, raised a fault and left the machine in phase j. -/
inductive InstrProgress (s : State) (k : Nat) : Prop where
  | through (t : State) (run : steps k s = .next t) (quiet : t.fault = none) (ph : t.ph = nextPhase k)
      (on : k < 12 → t.run = true)
  | stopped (j : Nat) (t : State) (c : FaultCause) (le : j ≤ k) (run : steps j s = .next t) (fault : t.fault = some c)
      (ph : t.ph = j)

/-- One more step within the instruction, from a state that is through k phases. -/
theorem instrProgress_succ (s t : State) (k : Nat) (hk : k < 12) (run : steps k s = .next t) (he : t.enabled)
    (ph : t.ph = nextPhase k) : InstrProgress s (k + 1) := by
  obtain ⟨u, hu⟩ := step_next_of_enabled t he
  have run' : steps (k + 1) s = .next u := (steps_succ_of_next k s t run).trans hu
  have here : t.ph = k + 1 := by rw [ph, nextPhase, if_neg (by omega)]
  rcases step_advances_or_raises t u hu with ⟨quiet, ph'⟩ | ⟨c, rfl⟩
  · refine .through u run' quiet (by rw [ph', here]) fun h => ?_
    rw [step_keeps_run t u hu (by omega), he.1]
  · exact .stopped (k + 1) _ c le_rfl run' rfl here

/-- R109: every run of at most twelve steps from phase 1 is in one of the two standings, whatever the instruction. -/
theorem instrProgress (k : Nat) (s : State) (he : s.enabled) (hp : s.ph = 1) (hk : k ≤ 12) : InstrProgress s k := by
  induction k with
  | zero => exact .through s rfl he.2 hp fun _ => he.1
  | succ k ih =>
    cases ih (by omega) with
    | through t run quiet ph on => exact instrProgress_succ s t k hk run ⟨on hk, quiet⟩ ph
    | stopped j t c le run fault ph => exact .stopped j t c (by omega) run fault ph

/-- A run with a fault at its j-th step answers no next state beyond the j-th. -/
theorem eq_of_steps_next_of_faulted (j k : Nat) (s t u : State) (c : FaultCause) (le : j ≤ k)
    (run : steps j s = .next t) (fault : t.fault = some c) (run' : steps k s = .next u) : j = k := by
  by_contra ne
  obtain ⟨d, rfl⟩ : ∃ d, k = j + (d + 1) := ⟨k - j - 1, by omega⟩
  rw [steps_add j (d + 1) s t run, steps_of_faulted d t c fault] at run'
  cases run'

/-- Settles O18, by the standing of a run within one instruction. -/
theorem twelvePhasesPerInstruction : Obligations.TwelvePhasesPerInstruction := by
  intro k s he hp hk
  cases instrProgress k s he hp hk with
  | through t run quiet ph _ =>
    refine ⟨.inl ⟨t, run⟩, fun u run' _ => ?_, fun u run' fault => ?_⟩
    · cases run.symm.trans run'
      exact ph
    · cases run.symm.trans run'
      exact absurd quiet fault
  | stopped j t c le run fault ph =>
    have faulted : t.fault ≠ none := by simp [fault]
    refine ⟨?_, fun u run' quiet => ?_, fun u run' _ => ?_⟩
    · rcases Nat.lt_or_eq_of_le le with lt | rfl
      · exact .inr ⟨j, t, lt, run, faulted⟩
      · exact .inl ⟨t, run⟩
    · cases eq_of_steps_next_of_faulted j k s t u c le run fault run'
      cases run.symm.trans run'
      exact absurd quiet faulted
    · cases eq_of_steps_next_of_faulted j k s t u c le run fault run'
      cases run.symm.trans run'
      refine ⟨ph, fun v => ?_⟩
      rw [step_of_faulted t c fault]
      exact nofun

/-- Phase 1: SAR and X take IAR, PH advances, and nothing else changes (R96, R103). -/
theorem step_phase1 (s : State) (he : s.enabled) (hp : s.ph = 1) :
    step s = .next { s with sar := s.iar, x := s.iar, ph := 2 } := by
  have did : fetchPhase s = .next { s with sar := s.iar, x := s.iar } := by
    simpa [hp] using fetchPhase_cases s (by omega)
  rw [step_of_fetchPhase s _ he (by omega) (by omega) did he.2, hp]
  rfl

/-- Phase 2: Y takes ONE, the tag is written, PH advances, and nothing else changes (R97, R103). -/
theorem step_phase2 (s : State) (he : s.enabled) (hp : s.ph = 2) :
    step s = .next { s with y := 1, alu := .inc, ph := 3 } := by
  have did : fetchPhase s = .next { s with y := 1, alu := .inc } := by
    simpa [hp] using fetchPhase_cases s (by omega)
  rw [step_of_fetchPhase s _ he (by omega) (by omega) did he.2, hp]
  rfl

/-- Phase 5: IR takes SIR, PH advances, and nothing else changes (R100, R103). -/
theorem step_phase5 (s : State) (he : s.enabled) (hp : s.ph = 5) :
    step s = .next { s with ir := s.sir, ph := 6 } := by
  have did : fetchPhase s = .next { s with ir := s.sir } := by
    simpa [hp] using fetchPhase_cases s (by omega)
  rw [step_of_fetchPhase s _ he (by omega) (by omega) did he.2, hp]
  rfl

/-- Settles O9: the three phases' transfers; after phase 5 IR is the SIR that the invariant has CI decode. -/
theorem fetchPhaseTransfers : Obligations.FetchPhaseTransfers := by
  intro s he
  refine ⟨step_phase1 s he, fun hp => ⟨.inc, step_phase2 s he hp⟩, fun hp => ⟨step_phase5 s he hp, ?_⟩⟩
  intro inv t ht
  cases (step_phase5 s he hp).symm.trans ht
  exact inv.ciOfSir hp

end Sys2Proof.Machine
end

section
/-! SUPPORT. The rotate of RAR and RRN as a permutation of bit positions (spec/44_unary_rotate.md R135); its laws are the
arithmetic of positions modulo 32. -/

namespace Sys2Proof.Machine

/-- R135: bit i of the rotated Word is bit (i + k) mod 32. Below 32 it comes from the right shift, else it has wrapped
around and comes from the left shift. -/
theorem getLsbD_rotr (v : Word) (k i : Nat) (hk : k ≤ 32) (hi : i < 32) :
    (rotr v k).getLsbD i = v.getLsbD ((i + k) % 32) := by
  rw [rotr, BitVec.getLsbD_or, BitVec.getLsbD_ushiftRight, BitVec.getLsbD_shiftLeft]
  rcases Nat.lt_or_ge (i + k) 32 with inside | wraps
  · have fromRight : i < 32 - k := by omega
    rw [Nat.mod_eq_of_lt inside, Nat.add_comm k i]
    simp [fromRight]
  · have fromLeft : ¬ i < 32 - k := by omega
    have position : (i + k) % 32 = i - (32 - k) := by omega
    rw [position, BitVec.getLsbD_of_ge v (k + i) (by omega)]
    simp [hi, fromLeft]

/-- Rotating by 0 is the identity (R135). -/
@[simp] theorem rotr_zero (v : Word) : rotr v 0 = v := by
  apply BitVec.eq_of_getLsbD_eq
  intro i hi
  rw [getLsbD_rotr v 0 i (by decide) hi, Nat.add_zero, Nat.mod_eq_of_lt hi]

/-- Rotating by the whole width is the identity (R135). -/
@[simp] theorem rotr_width (v : Word) : rotr v 32 = v := by
  apply BitVec.eq_of_getLsbD_eq
  intro i hi
  rw [getLsbD_rotr v 32 i le_rfl hi, Nat.add_mod_right, Nat.mod_eq_of_lt hi]

/-- Two rotates compose by adding their amounts: the positions add modulo 32. -/
theorem rotr_rotr (v : Word) (j k : Nat) (h : j + k ≤ 32) : rotr (rotr v j) k = rotr v (j + k) := by
  apply BitVec.eq_of_getLsbD_eq
  intro i hi
  have position : ((i + k) % 32 + j) % 32 = (i + (j + k)) % 32 := by omega
  rw [getLsbD_rotr _ k i (by omega) hi, getLsbD_rotr v j _ (by omega) (Nat.mod_lt _ (by decide)),
    getLsbD_rotr v (j + k) i h hi, position]

/-- Rotating on to the whole width restores the Word. -/
theorem rotr_rotr_complement (v : Word) (k : Nat) (hk : k ≤ 32) : rotr (rotr v k) (32 - k) = v := by
  rw [rotr_rotr v k (32 - k) (by omega), Nat.add_sub_of_le hk, rotr_width]

/-- A Word whose bits are all the same is unchanged by every rotate. -/
theorem rotr_of_constant_bits (v : Word) (b : Bool) (same : ∀ i, i < 32 → v.getLsbD i = b) (k : Nat) (hk : k ≤ 32) :
    rotr v k = v := by
  apply BitVec.eq_of_getLsbD_eq
  intro i hi
  rw [getLsbD_rotr v k i hk hi, same i hi, same _ (Nat.mod_lt _ (by decide))]

/-- Settles O56: every law is read off the bit positions; the two worked examples are evaluated. -/
theorem rotateLaws : Obligations.RotateLaws := by
  refine ⟨fun _ _ _ => rfl, getLsbD_rotr, fun v => ⟨rotr_zero v, rotr_width v⟩, rotr_rotr_complement, rotr_rotr,
    fun k hk => ⟨?_, ?_⟩, by decide, by decide⟩
  · exact rotr_of_constant_bits 0 false (by decide) k hk
  · exact rotr_of_constant_bits 0xFFFFFFFF true (by decide) k hk

end Sys2Proof.Machine
end

section
/-! SUPPORT. The encoder and the decoder as inverses (spec/30_encoding.md R76, R77, R81, R82, R83). -/

namespace Sys2Proof

/-! ### A Word made of an opcode field and a value field -/

/-- The low field of a Word whose bits below k are v's. -/
theorem extractLsb'_low_of_fields (o : BitVec 8) (v : Word) (k : Nat) (hk : k ≤ 32) :
    ((o.setWidth 32 <<< k) ||| v).extractLsb' 0 k = v.setWidth k := by
  ext i hi
  simp [hi, show i < 32 by omega]

/-- The high field of a Word whose bits from k up are o's. -/
theorem extractLsb'_high_of_fields (o : BitVec 8) (v : Word) (k : Nat) (hv : v.toNat < 2 ^ k) :
    ((o.setWidth 32 <<< k) ||| v).extractLsb' k (32 - k) = o.setWidth (32 - k) := by
  apply BitVec.eq_of_getLsbD_eq
  intro i hi
  have clear : v.getLsbD (k + i) = false :=
    Nat.testBit_lt_two_pow (hv.trans_le (Nat.pow_le_pow_right (by decide) (Nat.le_add_right k i)))
  have inWord : k + i < 32 := by omega
  have inField : i < 32 := by omega
  simp only [BitVec.getLsbD_extractLsb', BitVec.getLsbD_or, clear, BitVec.getLsbD_shiftLeft, BitVec.getLsbD_setWidth]
  simp [inWord, inField]

/-- Cutting a Word to its low n bits is masking it (R81). -/
theorem setWidth_setWidth_eq_mask (w : Word) (n : Nat) :
    (w.setWidth n).setWidth 32 = w &&& BitVec.ofNat 32 (2 ^ n - 1) := by
  have cut : w.setWidth n = w.extractLsb' 0 n := by ext i hi; simp
  rw [cut, lowBits_setWidth]

/-- A Word of 24 bits is not cut by the 24-bit field on its way into CI's 28-bit one (R77). -/
theorem setWidth_24_28_of_lt (v : Word) (h : v.toNat < 2 ^ 24) : (v.setWidth 24).setWidth 28 = v.setWidth 28 := by
  apply BitVec.eq_of_toNat_eq
  simp only [BitVec.toNat_setWidth]
  omega

/-! ### The decoder after the encoder -/

/-- A standard encoding decodes to the opcode, the whole value and the standard format (R77, R81). -/
theorem decodeWord_encodeStandard (o : BitVec 8) (v : BitVec 28) (ho : o.toNat ≤ 0xE) :
    decodeWord (encodeStandard o v) = { opcode := o, value := v, extended := false } := by
  have fits : (v.setWidth 32).toNat < 2 ^ 28 := by
    rw [BitVec.toNat_setWidth_of_le (by decide)]
    exact v.isLt
  have top : topNibble (encodeStandard o v) = o.setWidth 4 := extractLsb'_high_of_fields o _ 28 fits
  have low : (encodeStandard o v).extractLsb' 0 28 = v := by
    rw [encodeStandard, extractLsb'_low_of_fields _ _ _ (by decide), BitVec.setWidth_setWidth (by decide)]
    exact BitVec.setWidth_eq v
  have whole : (o.setWidth 4).setWidth 8 = o := by
    apply BitVec.eq_of_toNat_eq
    simp only [BitVec.toNat_setWidth]
    omega
  have standard : isExtendedWord (encodeStandard o v) = false := by
    rw [isExtendedWord, top, beq_eq_false_iff_ne]
    intro h
    have : (o.setWidth 4).toNat = 0xF := congrArg BitVec.toNat h
    rw [BitVec.toNat_setWidth] at this
    omega
  simp [decodeWord, standard, top, low, whole]

/-- An extended encoding decodes to the opcode, the value's low 24 bits and the extended format (R77, R81). -/
theorem decodeWord_encodeExtended (o : BitVec 8) (v : BitVec 28) (ho : 0xF0 ≤ o.toNat) :
    decodeWord (encodeExtended o v) =
      { opcode := o, value := (v.setWidth 32 &&& 0x00FFFFFF).setWidth 28, extended := true } := by
  have fits : (v.setWidth 32 &&& 0x00FFFFFF).toNat < 2 ^ 24 := by
    rw [BitVec.toNat_and]
    exact Nat.and_lt_two_pow _ (by decide)
  have high : (encodeExtended o v).extractLsb' 24 8 = o :=
    (extractLsb'_high_of_fields o _ 24 fits).trans (BitVec.setWidth_eq o)
  have low : ((encodeExtended o v).extractLsb' 0 24).setWidth 28 = (v.setWidth 32 &&& 0x00FFFFFF).setWidth 28 := by
    rw [encodeExtended, extractLsb'_low_of_fields _ _ _ (by decide)]
    exact setWidth_24_28_of_lt _ fits
  have extended : isExtendedWord (encodeExtended o v) = true := by
    have opcode : encodeExtended o v >>> 24 = o.setWidth 32 := by rw [← highBits_setWidth, high]
    rw [isExtendedWord_iff]
    apply BitVec.eq_of_toNat_eq
    have := congrArg BitVec.toNat opcode
    simp only [BitVec.toNat_ushiftRight, BitVec.toNat_setWidth, Nat.shiftRight_eq_div_pow] at this ⊢
    change _ = 15
    omega
  simp [decodeWord, extended, high, low]

/-- A standard mnemonic's opcode number is 0x0 to 0xE (R8). -/
theorem OpcodeMap.opc_le_of_standard (m : OpcodeMap) (h : m.wf = true) (M : Mnemonic) (hM : M.isExtended = false) :
    (m.opc M).toNat ≤ 0xE := by
  simpa [OpcodeMap.inRange, hM] using m.inRange_of_wf h M

/-- An extended mnemonic's opcode number is 0xF0 to 0xFF (R8). -/
theorem OpcodeMap.le_opc_of_extended (m : OpcodeMap) (h : m.wf = true) (M : Mnemonic) (hM : M.isExtended = true) :
    0xF0 ≤ (m.opc M).toNat := by
  simpa [OpcodeMap.inRange, hM] using m.inRange_of_wf h M

/-- Settles O2: each format's fields come back from the Word they were put into. -/
theorem encodingIsInvertedByDecoder : Obligations.EncodingIsInvertedByDecoder := by
  intro m M v h
  constructor
  · intro hM
    have value : v.setWidth 28 = (v &&& 0x0FFFFFFF).setWidth 28 := by
      have mask : (v.setWidth 28).setWidth 32 = v &&& 0x0FFFFFFF := setWidth_setWidth_eq_mask v 28
      rw [← mask, BitVec.setWidth_setWidth (by decide), BitVec.setWidth_eq]
    refine ⟨congrArg _ (setWidth_setWidth_eq_mask v 28), ?_⟩
    rw [decodeWord_encodeStandard _ _ (m.opc_le_of_standard h M hM), ← value]
  · intro hM
    have mask : (v.setWidth 28).setWidth 32 &&& 0x00FFFFFF = v &&& 0x00FFFFFF := by
      rw [setWidth_setWidth_eq_mask, BitVec.and_assoc]
      rfl
    refine ⟨congrArg _ mask, ?_⟩
    rw [decodeWord_encodeExtended _ _ (m.le_opc_of_extended h M hM), mask]

/-- An instruction is its mnemonic over its value (R78, R83), and a well-formed extended one's value fits 24 bits. -/
theorem Instr.rebuild (i : Instr) : Laws.Rebuild.Statement i := by
  cases i with
  | and a => exact Laws.Rebuild.and a
  | or a => exact Laws.Rebuild.or a
  | xor a => exact Laws.Rebuild.xor a
  | add a => exact Laws.Rebuild.add a
  | ldv a => exact Laws.Rebuild.ldv a
  | stv a => exact Laws.Rebuild.stv a
  | ldc c => exact Laws.Rebuild.ldc c
  | jmp t => exact Laws.Rebuild.jmp t
  | jmn t => exact Laws.Rebuild.jmn t
  | eql a => exact Laws.Rebuild.eql a
  | hlt => exact Laws.Rebuild.hlt
  | not => exact Laws.Rebuild.not
  | rar => exact Laws.Rebuild.rar
  | rrn n => exact Laws.Rebuild.rrn n

/-- The mask of the extended format leaves a value of 24 bits alone (R76). -/
theorem mask24_of_lt (v : BitVec 28) (h : v.toNat < 2 ^ 24) : (v.setWidth 32 &&& 0x00FFFFFF).setWidth 28 = v := by
  apply BitVec.eq_of_toNat_eq
  rw [BitVec.toNat_setWidth, BitVec.toNat_and, BitVec.toNat_setWidth_of_le (by decide)]
  change (v.toNat &&& (2 ^ 24 - 1)) % 2 ^ 28 = v.toNat
  rw [Nat.and_two_pow_sub_one_eq_mod]
  omega

/-- The decoder's fields of a well-formed instruction's Word are its mnemonic's number and its value. -/
theorem decodeWord_encode (m : OpcodeMap) (i : Instr) (h : m.wf = true) (hi : i.wellFormed = true) :
    decodeWord (encode m i) =
      { opcode := m.opc i.mnemonic, value := i.value, extended := i.mnemonic.isExtended } := by
  unfold encode
  cases hM : i.mnemonic.isExtended with
  | false => exact decodeWord_encodeStandard _ _ (m.opc_le_of_standard h _ hM)
  | true =>
    have fits : i.value.toNat < 2 ^ 24 := i.rebuild.2.mp hi hM
    exact (decodeWord_encodeExtended _ _ (m.le_opc_of_extended h _ hM)).trans (by rw [mask24_of_lt _ fits])

/-- Settles O3: the decoder gives the mnemonic's number and the value back, the lookup the mnemonic of that number, and
the two make the instruction. -/
theorem decodeEncodeRoundTrip : Obligations.DecodeEncodeRoundTrip := by
  intro m i h hi
  rw [decode, decodeWord_encode m i h hi, selectInstr, m.lookup_opc h]
  exact congrArg Except.ok i.rebuild.1

/-! ### The encoder after the decoder -/

/-- What a selected handler says of the decoded instruction (R101). -/
theorem selectInstr_eq_ok (m : OpcodeMap) (d : Decoded) (i : Instr) (h : selectInstr m d = .ok i) :
    ∃ M, m.opc M = d.opcode ∧ i = M.toInstr d.value := by
  unfold selectInstr at h
  cases hl : m.lookup d.opcode with
  | none => rw [hl] at h; cases h
  | some M =>
    rw [hl] at h
    cases h
    exact ⟨M, m.opc_of_lookup _ _ hl, rfl⟩

/-- A rejected decoded instruction names its own opcode number, which is no mnemonic's (R82, R101). -/
theorem selectInstr_eq_error (m : OpcodeMap) (d : Decoded) (o : BitVec 8) :
    selectInstr m d = .error (.invalidOpcode o) ↔ o = d.opcode ∧ ∀ M, m.opc M ≠ d.opcode := by
  rw [← m.lookup_eq_none]
  unfold selectInstr
  cases m.lookup d.opcode with
  | none => simp [eq_comm]
  | some M => simp

/-- The opcode number of a standard Word is its top nibble (R77). -/
theorem decodeWord_opcode_toNat_standard (w : Word) (h : w >>> 28 ≠ 0xF) :
    (decodeWord w).opcode.toNat = w.toNat / 2 ^ 28 := by
  have e := congrArg BitVec.toNat (decodeWord_standard w h).1
  rwa [BitVec.toNat_setWidth_of_le (by decide), BitVec.toNat_ushiftRight, Nat.shiftRight_eq_div_pow] at e

/-- The opcode number of an extended Word is its top byte (R77). -/
theorem decodeWord_opcode_toNat_extended (w : Word) (h : w >>> 28 = 0xF) :
    (decodeWord w).opcode.toNat = w.toNat / 2 ^ 24 := by
  have e := congrArg BitVec.toNat (decodeWord_extended w h).1
  rwa [BitVec.toNat_setWidth_of_le (by decide), BitVec.toNat_ushiftRight, Nat.shiftRight_eq_div_pow] at e

/-- The extended Words are those from 0xF0000000 up (R76). -/
theorem topNibble_eq_F_iff (w : Word) : w >>> 28 = 0xF ↔ 0xF0000000 ≤ w.toNat := by
  have size := w.isLt
  rw [← BitVec.toNat_inj, BitVec.toNat_ushiftRight, Nat.shiftRight_eq_div_pow]
  change w.toNat / 2 ^ 28 = 15 ↔ _
  omega

/-- Under a well-formed map a mnemonic with the opcode number of a Word has the Word's format (R8, R77). -/
theorem OpcodeMap.isExtended_iff_of_opc (m : OpcodeMap) (h : m.wf = true) (M : Mnemonic) (w : Word)
    (e : m.opc M = (decodeWord w).opcode) : M.isExtended = true ↔ w >>> 28 = 0xF := by
  constructor
  · intro hM
    by_contra standard
    have lo := m.le_opc_of_extended h M hM
    rw [e, decodeWord_opcode_toNat_standard w standard] at lo
    omega
  · intro extended
    by_contra hM
    have hi := m.opc_le_of_standard h M (by simpa using hM)
    rw [topNibble_eq_F_iff] at extended
    rw [e, decodeWord_opcode_toNat_extended w ((topNibble_eq_F_iff w).mpr extended)] at hi
    omega

/-- The value of an extended Word has 24 bits (R76). -/
theorem decodeWord_value_lt_of_extended (w : Word) (h : w >>> 28 = 0xF) : (decodeWord w).value.toNat < 2 ^ 24 := by
  have e := congrArg BitVec.toNat (decodeWord_extended w h).2.1
  rw [BitVec.toNat_setWidth_of_le (by decide), BitVec.toNat_and] at e
  rw [e]
  exact Nat.and_lt_two_pow _ (by decide)

/-- The bits of a Word from k up, in their place, are the Word under the mask of those bits. -/
theorem ushiftRight_shiftLeft_or_mask (w : Word) (k : Nat) :
    (w >>> k <<< k) ||| (w &&& ~~~(BitVec.allOnes 32 <<< k)) = w := by
  rw [BitVec.shiftLeft_ushiftRight, ← BitVec.and_or_distrib_left, BitVec.or_not_self, BitVec.and_allOnes]

/-- The decoder's fields of a standard Word encode to it (R77, R81). -/
theorem encodeStandard_decodeWord (w : Word) (h : w >>> 28 ≠ 0xF) :
    encodeStandard (decodeWord w).opcode (decodeWord w).value = w := by
  obtain ⟨opcode, value, _⟩ := decodeWord_standard w h
  rw [encodeStandard, opcode, value]
  exact ushiftRight_shiftLeft_or_mask w 28

/-- The decoder's fields of an extended Word encode to it (R77, R81). -/
theorem encodeExtended_decodeWord (w : Word) (h : w >>> 28 = 0xF) :
    encodeExtended (decodeWord w).opcode (decodeWord w).value = w := by
  obtain ⟨opcode, value, _⟩ := decodeWord_extended w h
  rw [encodeExtended, opcode, value, BitVec.and_assoc]
  exact ushiftRight_shiftLeft_or_mask w 24

/-- The opcode field of an extended Word alone is the Word with its value field zero (R83). -/
theorem encodeExtended_decodeWord_zero (w : Word) (h : w >>> 28 = 0xF) :
    encodeExtended (decodeWord w).opcode 0 = w &&& 0xFF000000 := by
  rw [encodeExtended, (decodeWord_extended w h).1, BitVec.shiftLeft_ushiftRight]
  exact BitVec.or_zero

/-- A standard mnemonic over a value is well formed, and is encoded in the standard format with
the value (R76, R81). -/
theorem encode_toInstr_of_standard (m : OpcodeMap) (M : Mnemonic) (v : BitVec 28) (hM : M.isExtended = false) :
    (M.toInstr v).wellFormed = true ∧ encode m (M.toInstr v) = encodeStandard (m.opc M) v := by
  cases M with
  | hlt | not | rar | rrn => cases hM
  | _ => exact ⟨rfl, rfl⟩

/-- Settles O4: a Word's format is its mnemonic's, and in each format the decoder's fields encode to the Word; HLT,
NOT and RAR drop the value field. -/
theorem decodedWordEncodesBack : Obligations.DecodedWordEncodesBack := by
  intro m w i h hd
  obtain ⟨M, e, rfl⟩ := selectInstr_eq_ok m (decodeWord w) i hd
  have format := m.isExtended_iff_of_opc h M w e
  by_cases extended : w >>> 28 = 0xF
  · have dropped : encodeExtended (m.opc M) 0 = w &&& 0xFF000000 := by
      rw [e, encodeExtended_decodeWord_zero w extended]
    have kept : encodeExtended (m.opc M) (decodeWord w).value = w := by
      rw [e, encodeExtended_decodeWord w extended]
    cases M with
    | hlt | not | rar => exact ⟨rfl, fun _ => dropped, by simp [Mnemonic.toInstr]⟩
    | rrn =>
      refine ⟨?_, by simp [Mnemonic.toInstr], fun _ _ _ => kept⟩
      simpa [Mnemonic.toInstr, Instr.wellFormed] using decodeWord_value_lt_of_extended w extended
    | _ => simp [Mnemonic.isExtended, extended] at format
  · have hM : M.isExtended = false := by simpa using mt format.mp extended
    obtain ⟨wf, enc⟩ := encode_toInstr_of_standard m M (decodeWord w).value hM
    rw [e, encodeStandard_decodeWord w extended] at enc
    refine ⟨wf, ?_, fun _ _ _ => enc⟩
    cases M with
    | hlt | not | rar | rrn => cases hM
    | _ => simp [Mnemonic.toInstr]

/-! ### Illegal Words -/

/-- A Word is rejected exactly when its opcode number is no mnemonic's (R82). -/
theorem decode_eq_error_iff (m : OpcodeMap) (w : Word) :
    decode m w = .error (.invalidOpcode (decodeWord w).opcode) ↔ ∀ M, m.opc M ≠ (decodeWord w).opcode := by
  rw [decode, selectInstr_eq_error]
  exact and_iff_right rfl

/-- The opcode numbers the default map leaves free (R80, R82). -/
theorem defaultOpcodes_free_iff (o : BitVec 8) :
    (∀ M, defaultOpcodes.opc M ≠ o) ↔ (0xA ≤ o.toNat ∧ o.toNat ≤ 0xEF) ∨ 0xF4 ≤ o.toNat := by
  constructor
  · intro free
    have other : ∀ M ∈ Mnemonic.all, (defaultOpcodes.opc M).toNat ≠ o.toNat :=
      fun M _ h => free M (BitVec.eq_of_toNat_eq h)
    simp only [Mnemonic.all, List.forall_mem_cons, OpcodeMap.opc, defaultOpcodes, BitVec.ofNat_eq_ofNat,
      BitVec.toNat_ofNat] at other
    omega
  · rintro outside M rfl
    revert outside
    cases M <;> decide

/-- Settles O5: the free opcode numbers of the default map are, in each format, those of the two ranges. -/
theorem illegalWordsAreRejected : Obligations.IllegalWordsAreRejected := by
  refine ⟨decode_eq_error_iff, fun w => ?_⟩
  rw [decode_eq_error_iff, defaultOpcodes_free_iff]
  have boundary := topNibble_eq_F_iff w
  by_cases extended : w >>> 28 = 0xF
  · rw [decodeWord_opcode_toNat_extended w extended]
    have := boundary.mp extended
    omega
  · rw [decodeWord_opcode_toNat_standard w extended]
    have := mt boundary.mpr extended
    omega

/-- Settles O6: each Word is decoded under the default map. -/
theorem sampleWordsDecode : Obligations.SampleWordsDecode := by
  unfold Obligations.SampleWordsDecode
  decide

end Sys2Proof
end

section
/-! SUPPORT. What each handler and each step can write (spec/10_state.md R39), and the frames and the
writers of each piece of state read off it. -/

namespace Sys2Proof.Machine

/-! ### What a handler writes, field by field -/

/-- Settles O43: every handler has one of the listed effects. -/
theorem execAlwaysAnswersNext : Obligations.ExecAlwaysAnswersNext := by
  intro i s
  obtain ⟨t, e, _⟩ := exec_effect i s
  exact ⟨t, e⟩

namespace ExecEffect

variable {s u : State} {i : Instr}

/-- No handler writes IR, CI, PH or the parameters (R39, R43). -/
theorem keeps_control (did : ExecEffect s i u) : u.ir = s.ir ∧ u.ci = s.ci ∧ u.ph = s.ph ∧ u.cfg = s.cfg := by
  cases did with
  | rotate => rw [s.rotateToZ_writes]; exact ⟨rfl, rfl, rfl, rfl⟩
  | _ => exact ⟨rfl, rfl, rfl, rfl⟩

/-- Only HLT writes RUN, in phase 12 (R24, R145). -/
theorem run_written (did : ExecEffect s i u) : u.run = s.run ∨ s.ph = 12 ∧ i = .hlt ∧ u = { s with run := false } := by
  cases did with
  | halt ph hi => exact .inr ⟨ph, hi, rfl⟩
  | rotate => rw [s.rotateToZ_writes]; exact .inl rfl
  | _ => exact .inl rfl

/-- Only JMP and a taken JMN write IAR, in phase 6 (R22, R130, R131). -/
theorem iar_written (did : ExecEffect s i u) :
    u.iar = s.iar ∨
      ∃ d, s.ph = 6 ∧ (i = .jmp d ∨ i = .jmn d ∧ isNegative s.acc = true) ∧ u.iar = operandWord d := by
  cases did with
  | jump d ph hi => exact .inr ⟨d, ph, hi, rfl⟩
  | rotate => rw [s.rotateToZ_writes]; exact .inl rfl
  | _ => exact .inl rfl

/-- Only LDC, LDV and the instructions that use the datapath write ACC, each in its phase (R21). -/
theorem acc_written (did : ExecEffect s i u) :
    u.acc = s.acc ∨ (∃ c, s.ph = 6 ∧ i = .ldc c ∧ u.acc = operandWord c) ∨
      (∃ a, s.ph = 10 ∧ i = .ldv a ∧ u.acc = s.sir) ∨ (s.ph = 12 ∧ UsesDatapath i ∧ u.acc = s.z) := by
  cases did with
  | accFromValue c ph hi => exact .inr (.inl ⟨c, ph, hi, rfl⟩)
  | accFromSir a ph hi => exact .inr (.inr (.inl ⟨a, ph, hi, rfl⟩))
  | accFromZ ph hi => exact .inr (.inr (.inr ⟨ph, hi, rfl⟩))
  | rotate => rw [s.rotateToZ_writes]; exact .inl rfl
  | _ => exact .inl rfl

/-- Only STV writes memory, in phase 7, and only the storage cell it addresses (R52, R126). -/
theorem mem_written (did : ExecEffect s i u) :
    u.mem = s.mem ∨ ∃ a, s.ph = 7 ∧ i = .stv a ∧ isStorage s.cfg (operandWord a) = true ∧
      u.mem = s.mem.write (operandWord a).toNat s.sir := by
  cases did with
  | store a ph hi ha => exact .inr ⟨a, ph, hi, ha, rfl⟩
  | rotate => rw [s.rotateToZ_writes]; exact .inl rfl
  | _ => exact .inl rfl

/-- Only STV writes OUT and DIAG, in phase 7: one event of SIR to OUT, or one address to DIAG (R34, R58 to R60). -/
theorem out_diag_written (did : ExecEffect s i u) :
    (u.out = s.out ∧ u.diag = s.diag) ∨ ∃ a, s.ph = 7 ∧ i = .stv a ∧
      ((∃ e, (e = .char (s.sir.setWidth 8) ∨ e = .int s.sir.toInt) ∧ u.out = s.out ++ [e] ∧ u.diag = s.diag) ∨
        u.out = s.out ∧ u.diag = s.diag ++ [operandWord a]) := by
  cases did with
  | emitEvent a e ph hi he => exact .inr ⟨a, ph, hi, .inl ⟨e, he, rfl, rfl⟩⟩
  | discard a ph hi => exact .inr ⟨a, ph, hi, .inr ⟨rfl, rfl⟩⟩
  | rotate => rw [s.rotateToZ_writes]; exact .inl ⟨rfl, rfl⟩
  | _ => exact .inl ⟨rfl, rfl⟩

/-- Only a rotate's phase 11 with Y above 32 draws a free value, one (R139). -/
theorem rotDraws_written (did : ExecEffect s i u) :
    u.rotDraws = s.rotDraws ∨
      (∃ k, s.ph = 11 ∧ rotateMeaning i = some k) ∧ 32 < s.y.toNat ∧ u.rotDraws = s.rotDraws + 1 := by
  cases did with
  | rotate k ph hi =>
    rcases Nat.lt_or_ge 32 s.y.toNat with above | within
    · rw [s.rotateToZ_of_gt above]; exact .inr ⟨⟨k, ph, hi⟩, above, rfl⟩
    · rw [s.rotateToZ_of_le within]; exact .inl rfl
  | _ => exact .inl rfl

/-- An instruction that does not use the datapath leaves X, Y, Z and the tag (R39). -/
theorem keeps_datapath (did : ExecEffect s i u) (hi : ¬ UsesDatapath i) :
    u.x = s.x ∧ u.y = s.y ∧ u.z = s.z ∧ u.alu = s.alu := by
  cases did with
  | latchAcc _ uses => exact absurd uses hi
  | latchOperand _ a op _ h => exact absurd (.inr (.inl ⟨a, op, h⟩)) hi
  | latchAmount _ k _ h => exact absurd (.inr (.inr ⟨k, h⟩)) hi
  | selectComplement _ _ h => exact absurd (.inl h) hi
  | combine a op _ h => exact absurd (.inr (.inl ⟨a, op, h⟩)) hi
  | complement _ h => exact absurd (.inl h) hi
  | rotate k _ h => exact absurd (.inr (.inr ⟨k, h⟩)) hi
  | _ => exact ⟨rfl, rfl, rfl, rfl⟩

/-- An instruction with no operand in memory leaves SAR, SIR and FAULT (R39). -/
theorem keeps_memory_latches (did : ExecEffect s i u) (reads : ∀ a, ¬ ReadsOperand i a) (stores : ∀ a, i ≠ .stv a) :
    u.sar = s.sar ∧ u.sir = s.sir ∧ u.fault = s.fault := by
  cases did with
  | latchAddress a _ h | readOperand a _ h _ | readIo a _ h _ _ | readHole a _ h _ _ => exact absurd h (reads a)
  | latchStored a _ h | store a _ h _ | storeHole a _ h _ _ | emitEvent a _ _ h _ | discard a _ h =>
    exact absurd h (stores a)
  | rotate => rw [s.rotateToZ_writes]; exact ⟨rfl, rfl, rfl⟩
  | _ => exact ⟨rfl, rfl, rfl⟩

/-- NOT leaves Y (R136). -/
theorem not_keeps_y (did : ExecEffect s .not u) : u.y = s.y := by
  cases did with
  | latchOperand _ _ _ _ h => cases h
  | latchAmount _ _ _ h => cases h
  | rotate => rw [s.rotateToZ_writes]
  | _ => rfl

end ExecEffect

/-- The instructions that leave X, Y, Z and the tag (R39). -/
theorem not_usesDatapath (i : Instr)
    (h : i = .hlt ∨ ∃ v, i = .ldv v ∨ i = .stv v ∨ i = .ldc v ∨ i = .jmp v ∨ i = .jmn v) : ¬ UsesDatapath i := by
  rcases h with rfl | ⟨v, rfl | rfl | rfl | rfl | rfl⟩ <;> simp [UsesDatapath, aluMeaning, rotateMeaning]

/-- The instructions that have no operand in memory (R52 (b)). -/
theorem no_memory_operand (i : Instr)
    (h : i = .hlt ∨ i = .not ∨ i = .rar ∨ ∃ v, i = .rrn v ∨ i = .ldc v ∨ i = .jmp v ∨ i = .jmn v) :
    (∀ a, ¬ ReadsOperand i a) ∧ ∀ a, i ≠ .stv a := by
  rcases h with rfl | rfl | rfl | ⟨v, rfl | rfl | rfl | rfl⟩ <;> simp [ReadsOperand, aluMeaning]

/-- The instructions that leave ACC (R39). -/
theorem ExecEffect.keeps_acc {s u : State} {i : Instr} (did : ExecEffect s i u)
    (h : i = .hlt ∨ ∃ v, i = .stv v ∨ i = .jmp v ∨ i = .jmn v) : u.acc = s.acc := by
  have uses : ¬ UsesDatapath i := not_usesDatapath i (h.imp_right fun ⟨v, h⟩ => ⟨v, by tauto⟩)
  rcases did.acc_written with e | ⟨c, _, rfl, _⟩ | ⟨a, _, rfl, _⟩ | ⟨_, hi, _⟩
  · exact e
  · simp at h
  · simp at h
  · exact absurd hi uses

/-- Settles O44: each register's frame is what the list of its writers leaves out. -/
theorem registerFrame : Obligations.RegisterFrame := by
  intro i s t h
  have did := effect_of_exec i s t h
  obtain ⟨ir, ci, ph, cfg⟩ := did.keeps_control
  refine ⟨ir, ci, ph, cfg, fun ne => ?_, fun jmp jmn => ?_, did.keeps_acc,
    fun hi => did.keeps_datapath (not_usesDatapath i hi), ?_,
    fun hi => did.keeps_memory_latches (no_memory_operand i hi).1 (no_memory_operand i hi).2, fun rrn rar => ?_,
    fun stv => ?_⟩
  · exact did.run_written.resolve_right fun ⟨_, hi, _⟩ => ne hi
  · exact did.iar_written.resolve_right fun ⟨d, _, hi, _⟩ => hi.elim (jmp d) fun hi => jmn d hi.1
  · rintro rfl
    exact did.not_keeps_y
  · refine did.rotDraws_written.resolve_right fun ⟨⟨k, _, hi⟩, _⟩ => ?_
    cases i with
    | rar => exact rar rfl
    | rrn n => exact rrn n rfl
    | _ => cases hi
  · exact did.out_diag_written.resolve_right fun ⟨a, _, hi, _⟩ => stv a hi

/-- Settles O45: the one write to memory is of the cell that STV's phase 7 addresses. -/
theorem memoryFrame : Obligations.MemoryFrame := by
  intro i s t h
  have written := (effect_of_exec i s t h).mem_written
  refine ⟨fun stv => ?_, fun a b hi hb => ?_, fun a b hi hp => ?_⟩
  · exact written.resolve_right fun ⟨a, _, hi, _⟩ => stv a hi
  · rcases written with e | ⟨a', _, hi', _, e⟩
    · rw [e]
    · cases hi.symm.trans hi'
      rw [e, Memory.read_write_of_ne _ _ _ _ hb]
  · rw [written.resolve_right fun ⟨_, ph, _⟩ => hp ph]

/-! ### What a step writes -/

/-- t agrees with s on everything that neither a fetch phase nor the latching of a fault writes (R38, R39, R150). -/
structure State.AgreesOutsideFetch (s t : State) : Prop where
  acc : t.acc = s.acc
  run : t.run = s.run
  mem : t.mem = s.mem
  out : t.out = s.out
  diag : t.diag = s.diag
  rotDraws : t.rotDraws = s.rotDraws
  cfg : t.cfg = s.cfg

/-- A fetch phase writes none of the fields of `State.AgreesOutsideFetch`, and IAR in phase 4 only (R96 to R100). -/
theorem fetchPhase_writes (s u : State) (h : 1 ≤ s.ph ∧ s.ph ≤ 5) (did : fetchPhase s = .next u) :
    s.AgreesOutsideFetch u ∧ (s.ph ≠ 4 → u.iar = s.iar) := by
  rcases fetchPhase_cases s h with
    ⟨_, g⟩ | ⟨_, g⟩ | ⟨_, g⟩ | ⟨p, _, g⟩ | ⟨_, _, _, g⟩ | ⟨_, _, _, g⟩ | ⟨_, g⟩ <;>
    cases g.symm.trans did
  case inr.inr.inr.inl => exact ⟨⟨rfl, rfl, rfl, rfl, rfl, rfl, rfl⟩, fun h => absurd p h⟩
  all_goals exact ⟨⟨rfl, rfl, rfl, rfl, rfl, rfl, rfl⟩, fun _ => rfl⟩

/-- A step is a fault's or a fetch phase's, which leave the fields of `State.AgreesOutsideFetch`, or it is a handler's
effect and the advance of PH. -/
theorem step_fetches_or_executes (s t : State) (h : step s = .next t) :
    s.AgreesOutsideFetch t ∨
      ∃ i u, s.inPhase s.ph i ∧ ExecEffect s i u ∧ t = { u with ph := nextPhase s.ph } := by
  obtain ⟨_, effect⟩ := effect_of_step s t h
  cases effect with
  | raised c _ => exact .inl ⟨rfl, rfl, rfl, rfl, rfl, rfl, rfl⟩
  | fetched u lo hi did _ _ =>
    obtain ⟨acc, run, mem, out, diag, rotDraws, cfg⟩ := (fetchPhase_writes s u ⟨lo, hi⟩ did).1
    exact .inl ⟨acc, run, mem, out, diag, rotDraws, cfg⟩
  | executed i u _ _ at_ did _ _ => exact .inr ⟨i, u, at_, did, rfl⟩

/-- A step that clears RUN is HLT's phase 12, and leaves PH = 1 and FAULT as they are at rest (R24, R145). -/
theorem step_clears_run (s t : State) (h : step s = .next t) (ne : t.run ≠ s.run) :
    s.inPhase 12 .hlt ∧ t = { s with run := false, ph := 1 } := by
  rcases step_fetches_or_executes s t h with same | ⟨i, u, at_, did, rfl⟩
  · exact absurd same.run ne
  · obtain ⟨ph, rfl, rfl⟩ := did.run_written.resolve_left ne
    rw [ph] at at_
    refine ⟨at_, ?_⟩
    rw [ph]
    rfl

/-- A halted machine takes no step (R95). -/
theorem step_of_halted (s : State) (hr : s.run = false) (hf : s.fault = none) : step s = .fault .halted := by
  simp [step, stepWith, hr, hf]

/-- Settles O7: R95's two conditions, and the one writer of RUN. -/
theorem stepEnabledExactlyWhenRunning : Obligations.StepEnabledExactlyWhenRunning := by
  intro s
  refine ⟨⟨fun ⟨t, h⟩ => (effect_of_step s t h).1, step_next_of_enabled s⟩, step_of_halted s, step_of_faulted s, ?_⟩
  intro t h ne
  obtain ⟨at_, rfl⟩ := step_clears_run s t h ne
  exact ⟨at_, rfl⟩

/-- "negative" as a signed number is bit 31 set (R131). -/
theorem isNegative_iff (w : Word) : isNegative w = true ↔ w.toInt < 0 := by
  rw [isNegative, ← BitVec.msb_eq_getLsbD_last w, BitVec.msb_eq_toInt, decide_eq_true_iff]

/-- Settles O50: no fault and no fetch phase but the fourth writes IAR, and of the handlers only the jumps'. -/
theorem onlyFetchAndJumpsWriteIar : Obligations.OnlyFetchAndJumpsWriteIar := by
  intro s t h ne
  obtain ⟨_, effect⟩ := effect_of_step s t h
  cases effect with
  | raised c _ => exact absurd rfl ne
  | fetched u lo hi did _ _ =>
    by_contra other
    exact ne ((fetchPhase_writes s u ⟨lo, hi⟩ did).2 fun ph => other (.inl ph))
  | executed i u _ _ at_ did _ _ =>
    obtain ⟨d, ph, hi, e⟩ := did.iar_written.resolve_left ne
    rw [ph] at at_
    refine .inr ⟨d, e, ?_⟩
    rcases hi with rfl | ⟨rfl, negative⟩
    · exact .inl at_
    · exact .inr ⟨at_, (isNegative_iff s.acc).mp negative⟩

/-- Settles O51, by the writers of ACC among the handlers. -/
theorem accumulatorWriters : Obligations.AccumulatorWriters := by
  intro s t h ne
  rcases step_fetches_or_executes s t h with same | ⟨i, u, at_, did, rfl⟩
  · exact absurd same.acc ne
  · rcases did.acc_written.resolve_left ne with ⟨c, ph, rfl, e⟩ | ⟨a, ph, rfl, e⟩ | ⟨ph, uses, e⟩
    · exact .inl ⟨c, ph ▸ at_, e⟩
    · exact .inr (.inl ⟨a, ph ▸ at_, e⟩)
    · exact .inr (.inr ⟨i, ph ▸ at_, e, uses⟩)

/-- Settles O52, by the one writer of memory among the handlers. -/
theorem onlyStvWritesMemory : Obligations.OnlyStvWritesMemory := by
  intro s t h ne
  rcases step_fetches_or_executes s t h with same | ⟨i, u, at_, did, rfl⟩
  · exact absurd same.mem ne
  · obtain ⟨a, ph, rfl, storage, e⟩ := did.mem_written.resolve_left ne
    refine ⟨a, ph ▸ at_, storage, fun b => ?_⟩
    have written : u.mem.read b = _ := congrArg (Memory.read · b) e
    exact written.trans (Memory.read_write _ _ _ _)

/-- Settles O53, by the one writer of OUT and DIAG among the handlers. -/
theorem outAndDiagOnlyGrow : Obligations.OutAndDiagOnlyGrow := by
  intro s t h
  rcases step_fetches_or_executes s t h with same | ⟨i, u, at_, did, rfl⟩
  · exact ⟨[], [], by simp [same.out], by simp [same.diag], by simp, by simp⟩
  · rcases did.out_diag_written with ⟨out, diag⟩ | ⟨a, ph, rfl, ⟨e, _, out, diag⟩ | ⟨out, diag⟩⟩
    · exact ⟨[], [], by simp [out], by simp [diag], by simp, by simp⟩
    · exact ⟨[e], [], out, by simp [diag], by simp, fun _ => ⟨a, ph ▸ at_⟩⟩
    · exact ⟨[], [operandWord a], by simp [out], diag, by simp, fun _ => ⟨a, ph ▸ at_⟩⟩

/-- Settles O54: no effect writes the parameters, and only a rotate over 32 counts a draw. -/
theorem parametersFixedAndDrawsOnlyByRotates : Obligations.ParametersFixedAndDrawsOnlyByRotates := by
  intro s t h
  rcases step_fetches_or_executes s t h with same | ⟨i, u, at_, did, rfl⟩
  · exact ⟨same.cfg, fun ne => absurd same.rotDraws ne⟩
  · obtain ⟨_, _, _, cfg⟩ := did.keeps_control
    refine ⟨cfg, fun ne => ?_⟩
    obtain ⟨⟨k, ph, hi⟩, above, e⟩ := did.rotDraws_written.resolve_left ne
    exact ⟨e, above, i, k, ph ▸ at_, hi⟩

end Sys2Proof.Machine
end

section
/-! SUPPORT. The invariant of every state reached from creation (spec/10_state.md R40, spec/70_reset_and_hazards.md
R181): a part about what is stored and sent, a part about the sequencer's latches, each kept by every step. Then
the faults of a step (spec/60_exceptions.md R150 to R153). -/

namespace Sys2Proof.Machine

/-! ### The two parts of the invariant -/

/-- The clauses of the invariant about MEM and OUT. -/
structure State.DataInv (s : State) : Prop where
  memForm : s.mem.wf
  memBound : s.mem.within s.cfg.memWords
  outRange : ∀ n, OutEvent.int n ∈ s.out → -(2 ^ 31) ≤ n ∧ n ≤ 2 ^ 31 - 1

/-- The clauses of the invariant about PH, CI and the fetch's latches. -/
structure State.ControlInv (s : State) : Prop where
  phase : 1 ≤ s.ph ∧ s.ph ≤ 12
  ciOfSir : s.ph = 5 → s.ci = decodeWord s.sir
  ciOfIr : 6 ≤ s.ph → s.ci = decodeWord s.ir
  selected : 7 ≤ s.ph → ∃ i, selectInstr s.cfg.opcodes s.ci = .ok i
  fetchAddress : 2 ≤ s.ph ∧ s.ph ≤ 4 → s.sar = s.iar ∧ s.x = s.iar
  fetchOne : 3 ≤ s.ph ∧ s.ph ≤ 4 → s.y = 1
  fetchNext : s.ph = 4 → s.z = s.iar + 1

/-- The invariant is its two parts. -/
theorem State.inv_iff (s : State) : s.Inv ↔ s.DataInv ∧ s.ControlInv := by
  constructor
  · intro h
    exact ⟨⟨h.memForm, h.memBound, h.outRange⟩,
      ⟨h.phase, h.ciOfSir, h.ciOfIr, h.selected, h.fetchAddress, h.fetchOne, h.fetchNext⟩⟩
  · rintro ⟨⟨memForm, memBound, outRange⟩, phase, ciOfSir, ciOfIr, selected, fetchAddress, fetchOne, fetchNext⟩
    exact ⟨phase, memForm, memBound, outRange, ciOfSir, ciOfIr, selected, fetchAddress, fetchOne, fetchNext⟩

/-- A signed Word is in the range of the integer port's events (R34, R59). -/
theorem toInt_range (w : Word) : -(2 ^ 31) ≤ w.toInt ∧ w.toInt ≤ 2 ^ 31 - 1 := by
  have lower := BitVec.le_toInt w
  have upper := BitVec.toInt_lt (x := w)
  omega

/-- A handler keeps the data part: a store writes in canonical form inside the bound, an event is a signed Word. -/
theorem ExecEffect.keeps_dataInv {s u : State} {i : Instr} (did : ExecEffect s i u) (inv : s.DataInv) : u.DataInv := by
  obtain ⟨_, _, _, cfg⟩ := did.keeps_control
  have memory : u.mem.wf ∧ u.mem.within s.cfg.memWords := by
    rcases did.mem_written with e | ⟨a, _, _, storage, e⟩ <;> rw [e]
    · exact ⟨inv.memForm, inv.memBound⟩
    · exact ⟨Memory.write_wf _ _ _ inv.memForm,
        Memory.write_within _ _ _ _ inv.memBound ((isStorage_iff _ _).mp storage)⟩
  refine ⟨memory.1, by rw [cfg]; exact memory.2, fun n hn => ?_⟩
  rcases did.out_diag_written with ⟨e, _⟩ | ⟨a, _, _, ⟨v, hv, e, _⟩ | ⟨e, _⟩⟩ <;> rw [e] at hn
  · exact inv.outRange n hn
  · rcases List.mem_append.mp hn with old | new
    · exact inv.outRange n old
    · rcases hv with rfl | rfl
      · simp at new
      · obtain rfl : n = s.sir.toInt := by simpa using new
        exact toInt_range s.sir
  · exact inv.outRange n hn

/-- Every step keeps the data part. -/
theorem step_keeps_dataInv (s t : State) (h : step s = .next t) (inv : s.DataInv) : t.DataInv := by
  rcases step_fetches_or_executes s t h with same | ⟨i, u, _, did, rfl⟩
  · refine ⟨?_, ?_, ?_⟩
    · rw [same.mem]; exact inv.memForm
    · rw [same.mem, same.cfg]; exact inv.memBound
    · rw [same.out]; exact inv.outRange
  · obtain ⟨memForm, memBound, outRange⟩ := did.keeps_dataInv inv
    exact ⟨memForm, memBound, outRange⟩

/-- In phase 1 nothing is asked of the latches. -/
theorem controlInv_of_phase1 (s : State) (h : s.ph = 1) : s.ControlInv := by
  constructor <;> omega

/-- From phase 7 on the latches of the fetch are free; CI must be IR's decoding and select a handler. -/
theorem controlInv_of_selected (s : State) (h : 7 ≤ s.ph ∧ s.ph ≤ 12) (ci : s.ci = decodeWord s.ir)
    (selected : ∃ i, selectInstr s.cfg.opcodes s.ci = .ok i) : s.ControlInv :=
  ⟨by omega, by omega, fun _ => ci, fun _ => selected, by omega, by omega, by omega⟩

/-- Each fetch phase establishes what the control part asks of the next phase (R96 to R100). -/
theorem fetchPhase_keeps_controlInv (s u : State) (h : 1 ≤ s.ph ∧ s.ph ≤ 5) (did : fetchPhase s = .next u)
    (quiet : u.fault = none) (inv : s.ControlInv) : { u with ph := nextPhase s.ph }.ControlInv := by
  rcases fetchPhase_cases s h with
    ⟨p, g⟩ | ⟨p, g⟩ | ⟨p, g⟩ | ⟨p, _, g⟩ | ⟨p, _, _, g⟩ | ⟨p, _, _, g⟩ | ⟨p, g⟩ <;>
    cases g.symm.trans did
  case inr.inr.inr.inr.inl | inr.inr.inr.inr.inr.inl => cases quiet
  case inl => constructor <;> simp [p, nextPhase]
  case inr.inl =>
    have address := inv.fetchAddress (by omega)
    constructor <;> simp [p, nextPhase, address]
  case inr.inr.inl =>
    have address := inv.fetchAddress (by omega)
    have one := inv.fetchOne (by omega)
    constructor <;> simp [p, nextPhase, address, one]
  case inr.inr.inr.inl => constructor <;> simp [p, nextPhase]
  case inr.inr.inr.inr.inr.inr =>
    have ci := inv.ciOfSir p
    constructor <;> simp [p, nextPhase, ci]

/-- Every step keeps the control part. -/
theorem step_keeps_controlInv (s t : State) (h : step s = .next t) (inv : s.ControlInv) : t.ControlInv := by
  obtain ⟨_, effect⟩ := effect_of_step s t h
  cases effect with
  | raised c _ =>
    obtain ⟨phase, ciOfSir, ciOfIr, selected, fetchAddress, fetchOne, fetchNext⟩ := inv
    exact ⟨phase, ciOfSir, ciOfIr, selected, fetchAddress, fetchOne, fetchNext⟩
  | fetched u lo hi did quiet _ => exact fetchPhase_keeps_controlInv s u ⟨lo, hi⟩ did quiet inv
  | executed i u lo hi at_ did _ _ =>
    obtain ⟨ir, ci, _, cfg⟩ := did.keeps_control
    by_cases last : s.ph = 12
    · exact controlInv_of_phase1 _ (if_pos last)
    · have next : nextPhase s.ph = s.ph + 1 := if_neg last
      refine controlInv_of_selected _ (by simp only [next]; omega) ?_ ⟨i, ?_⟩
      · simpa [ci, ir] using inv.ciOfIr lo
      · simpa [ci, cfg] using at_.2.2

/-- Settles O46: every step keeps each of the two parts of the invariant. -/
theorem stepKeepsInvariant : Obligations.StepKeepsInvariant := by
  intro s t inv h
  rw [State.inv_iff] at inv ⊢
  exact ⟨step_keeps_dataInv s t h inv.1, step_keeps_controlInv s t h inv.2⟩

/-- Settles O47: creation leaves MEM and OUT empty and PH = 1, where nothing is asked of the latches. -/
theorem creationMeetsInvariant : Obligations.CreationMeetsInvariant := by
  have created (c : Config) : (State.create c).Inv := by
    obtain ⟨memForm, memBound⟩ := State.create_mem_wf c
    exact (State.inv_iff _).mpr ⟨⟨memForm, memBound, nofun⟩, controlInv_of_phase1 _ rfl⟩
  exact ⟨created, created defaultConfig⟩

/-- Settles O49: creation's fields. -/
theorem creationState : Obligations.CreationState :=
  fun _ => ⟨Memory.read_nil, rfl, rfl, rfl, rfl, rfl, rfl, rfl, rfl⟩

/-- CI stays the decoding of IR over a fetch phase: only phase 4 writes CI and only phase 5 IR (R40 (e)). -/
theorem fetchPhase_keeps_ciMatchesIr (s u : State) (h : 1 ≤ s.ph ∧ s.ph ≤ 5) (did : fetchPhase s = .next u)
    (quiet : u.fault = none) (inv : s.CiMatchesIr) : { u with ph := nextPhase s.ph }.CiMatchesIr := by
  rcases fetchPhase_cases s h with
    ⟨p, g⟩ | ⟨p, g⟩ | ⟨p, g⟩ | ⟨p, _, g⟩ | ⟨p, _, _, g⟩ | ⟨p, _, _, g⟩ | ⟨p, g⟩ <;>
    cases g.symm.trans did
  case inr.inr.inr.inr.inl | inr.inr.inr.inr.inr.inl => cases quiet
  case inr.inr.inr.inl => constructor <;> simp [p, nextPhase]
  case inr.inr.inr.inr.inr.inr =>
    have ci := inv.ofSir p
    constructor <;> simp [p, nextPhase, ci]
  all_goals
    have ci := inv.ofIr (by omega)
    constructor <;> simp [p, nextPhase, ci]

/-- Settles O48: no handler writes CI or IR, and no execute phase is followed by phase 5. -/
theorem ciStaysDecodingOfIr : Obligations.CiStaysDecodingOfIr := by
  refine ⟨fun s t inv h => ?_, ⟨fun _ => rfl, fun _ => rfl⟩⟩
  obtain ⟨_, effect⟩ := effect_of_step s t h
  cases effect with
  | raised c _ => exact ⟨inv.ofIr, inv.ofSir⟩
  | fetched u lo hi did quiet _ => exact fetchPhase_keeps_ciMatchesIr s u ⟨lo, hi⟩ did quiet inv
  | executed i u lo hi _ did _ _ =>
    obtain ⟨ir, ci, _, _⟩ := did.keeps_control
    have notFive : nextPhase s.ph ≠ 5 := by
      unfold nextPhase
      split <;> omega
    refine ⟨fun _ => ?_, fun five => absurd five notFive⟩
    simpa [ci, ir] using inv.ofIr (by omega)

/-! ### The faults of a step -/

/-- A step that answers a state with a fault raised it, and changed FAULT alone (R104, R150). -/
theorem raisedBy_of_step (s t : State) (c : FaultCause) (h : step s = .next t) (hc : t.fault = some c) :
    RaisedBy s c ∧ t = { s with fault := some c } := by
  obtain ⟨_, effect⟩ := effect_of_step s t h
  cases effect with
  | raised c' why =>
    cases hc
    exact ⟨why, rfl⟩
  | fetched u _ _ _ quiet _ | executed _ u _ _ _ _ quiet _ => cases quiet.symm.trans hc

/-- Settles O16: the raising step latches the fault alone, and a latched fault stops the machine. -/
theorem faultCommitsNothing : Obligations.FaultCommitsNothing :=
  fun s t c h hc => ⟨(raisedBy_of_step s t c h hc).2, step_of_faulted t c hc⟩

/-- The two ways to read outside storage, as the statements of the faults put it (R57, R62). -/
theorem readsOutside_of_inPhase9 (s : State) (i : Instr) (a : BitVec 28) (at9 : s.inPhase 9 i)
    (reads : ReadsOperand i a) :
    ∃ v, s.inPhase 9 (.ldv v) ∨ ∃ i op, aluMeaning i = some (v, op) ∧ s.inPhase 9 i := by
  rcases reads with rfl | ⟨op, hi⟩
  · exact ⟨a, .inl at9⟩
  · exact ⟨a, .inr ⟨i, op, hi, at9⟩⟩

theorem not_isStorage_iff (c : Config) (a : Word) : isStorage c a = false ↔ c.memWords ≤ a.toNat := by
  simp [isStorage]

theorem not_isIo_iff (c : Config) (a : Word) : isIo c a = false ↔ a.toNat < c.ioBoundary.toNat := by
  simp [isIo]

/-- Settles O17, by the list of what raises each fault. -/
theorem faultsByPhase : Obligations.FaultsByPhase := by
  intro s t h
  refine ⟨fun p hc => ?_, fun o hc => ?_, fun a hc => ?_, fun a hc => ?_, fun a hc => ?_⟩ <;>
    have why := (raisedBy_of_step s t _ h hc).1
  · cases why with
    | phaseRange ph => exact ⟨rfl, ph⟩
  · cases why with
    | invalidOpcode _ lo hi unselected =>
      obtain ⟨rfl, free⟩ := (selectInstr_eq_error _ _ _).mp unselected
      refine ⟨rfl, free, lo, hi, fun inv => ?_⟩
      by_contra ne
      obtain ⟨i, selected⟩ := inv.selected (by omega)
      cases unselected.symm.trans selected
  · cases why with
    | fetchIo ph ha hio => exact ⟨rfl, (not_isStorage_iff _ _).mp ha, (isIo_iff _ _).mp hio, .inl ph⟩
    | operandIo i a at9 reads ha hio =>
      exact ⟨rfl, (not_isStorage_iff _ _).mp ha, (isIo_iff _ _).mp hio, .inr (readsOutside_of_inPhase9 s i a at9 reads)⟩
  · cases why with
    | fetchHole ph ha hio => exact ⟨rfl, (not_isStorage_iff _ _).mp ha, (not_isIo_iff _ _).mp hio, .inl ph⟩
    | operandHole i a at9 reads ha hio =>
      exact ⟨rfl, (not_isStorage_iff _ _).mp ha, (not_isIo_iff _ _).mp hio,
        .inr (readsOutside_of_inPhase9 s i a at9 reads)⟩
  · cases why with
    | storeHole v at7 ha hio => exact ⟨(not_isStorage_iff _ _).mp ha, (not_isIo_iff _ _).mp hio, v, at7, rfl⟩

/-- Settles O21: the range check comes first, and the invariant keeps PH in range. -/
theorem phaseRangeFault : Obligations.PhaseRangeFault := by
  constructor
  · intro s he outside
    rw [step_of_enabled s he, phaseStep, if_pos outside]
    rfl
  · intro s t p inv h hc
    cases (raisedBy_of_step s t _ h hc).1 with
    | phaseRange outside =>
      have := inv.phase
      omega

end Sys2Proof.Machine
end

section
/-! SUPPORT. The console's bytes (spec/20_memory.md R61), the host's load (spec/70_reset_and_hazards.md R175, R177) and
the debug snapshots (spec/60_exceptions.md R166). -/

namespace Sys2Proof.Machine

/-! ### Decimal digits -/

/-- The ASCII byte of a number's last decimal digit (R61). -/
def asciiDigit (n : Nat) : Byte := BitVec.ofNat 8 (0x30 + n % 10)

theorem asciiDigit_toNat (n : Nat) : (asciiDigit n).toNat = 0x30 + n % 10 := by
  rw [asciiDigit, BitVec.toNat_ofNat]
  omega

theorem decimalDigits_succ (fuel n : Nat) (rest : List Byte) :
    decimalDigits (fuel + 1) n rest =
      if n / 10 = 0 then asciiDigit n :: rest else decimalDigits fuel (n / 10) (asciiDigit n :: rest) := rfl

/-- The digits are put before what is already there. -/
theorem decimalDigits_append (fuel n : Nat) (xs ys : List Byte) :
    decimalDigits fuel n (xs ++ ys) = decimalDigits fuel n xs ++ ys := by
  induction fuel generalizing n xs with
  | zero => rfl
  | succ fuel ih =>
    rw [decimalDigits_succ, decimalDigits_succ]
    split
    · rfl
    · exact ih (n / 10) (asciiDigit n :: xs)

/-- Fuel above the number is enough. -/
theorem decimalDigits_fuel (f g n : Nat) (rest : List Byte) (hf : n < f) (hg : n < g) :
    decimalDigits f n rest = decimalDigits g n rest := by
  induction f generalizing g n rest with
  | zero => omega
  | succ f ih =>
    obtain ⟨g, rfl⟩ : ∃ g', g = g' + 1 := ⟨g - 1, by omega⟩
    rw [decimalDigits_succ, decimalDigits_succ]
    split
    · rfl
    · exact ih g (n / 10) _ (by omega) (by omega)

/-- A number below 10 is its one digit (R61). -/
theorem decimal_of_lt (n : Nat) (h : n < 10) : decimal n = [asciiDigit n] :=
  if_pos (by omega)

/-- A larger number is the digits of its tenth part, then its last digit (R61). -/
theorem decimal_of_ge (n : Nat) (h : 10 ≤ n) : decimal n = decimal (n / 10) ++ [asciiDigit n] := by
  have more : n / 10 ≠ 0 := by omega
  calc decimal n
    _ = decimalDigits n (n / 10) [asciiDigit n] := if_neg more
    _ = decimalDigits (n / 10 + 1) (n / 10) ([] ++ [asciiDigit n]) := decimalDigits_fuel _ _ _ _ (by omega) (by omega)
    _ = decimal (n / 10) ++ [asciiDigit n] := decimalDigits_append _ _ _ _

/-- A property of numbers and their digits, from the one digit and the step that adds a last one. -/
theorem decimal_induction (P : Nat → List Byte → Prop) (one : ∀ n, n < 10 → P n [asciiDigit n])
    (more : ∀ n ds, 10 ≤ n → P (n / 10) ds → P n (ds ++ [asciiDigit n])) (n : Nat) : P n (decimal n) := by
  induction n using Nat.strong_induction_on with
  | h n ih =>
    rcases Nat.lt_or_ge n 10 with small | large
    · rw [decimal_of_lt n small]
      exact one n small
    · rw [decimal_of_ge n large]
      exact more n _ large (ih (n / 10) (by omega))

theorem digitsValue_append_digit (ds : List Byte) (n : Nat) :
    digitsValue (ds ++ [asciiDigit n]) = 10 * digitsValue ds + n % 10 := by
  simp [digitsValue, asciiDigit_toNat]

/-- The digits denote the number. -/
theorem digitsValue_decimal (n : Nat) : digitsValue (decimal n) = n := by
  refine decimal_induction (fun n ds => digitsValue ds = n) (fun n h => ?_) (fun n ds _ ih => ?_) n
  · rw [← List.nil_append [asciiDigit n], digitsValue_append_digit]
    exact (Nat.zero_add _).trans (Nat.mod_eq_of_lt h)
  · rw [digitsValue_append_digit, ih]
    exact Nat.div_add_mod n 10

/-- Every byte is an ASCII digit. -/
theorem decimal_digits (n : Nat) : ∀ d ∈ decimal n, 0x30 ≤ d.toNat ∧ d.toNat ≤ 0x39 := by
  have digit (n : Nat) : 0x30 ≤ (asciiDigit n).toNat ∧ (asciiDigit n).toNat ≤ 0x39 := by
    rw [asciiDigit_toNat]
    omega
  refine decimal_induction (fun _ ds => ∀ d ∈ ds, 0x30 ≤ d.toNat ∧ d.toNat ≤ 0x39) (fun n _ => ?_)
    (fun n ds _ ih => ?_) n
  · exact List.forall_mem_singleton.mpr (digit n)
  · exact List.forall_mem_append.mpr ⟨ih, List.forall_mem_singleton.mpr (digit n)⟩

/-- A positive number has no leading zero. -/
theorem decimal_leading (n : Nat) : n ≠ 0 → ∃ d ds, decimal n = d :: ds ∧ d ≠ 0x30 := by
  refine decimal_induction (fun n l => n ≠ 0 → ∃ d ds, l = d :: ds ∧ d ≠ 0x30) (fun n small pos => ?_)
    (fun n l large ih _ => ?_) n
  · refine ⟨asciiDigit n, [], rfl, fun zero => ?_⟩
    have digit : 0x30 + n % 10 = 0x30 := by rw [← asciiDigit_toNat, zero]; rfl
    omega
  · obtain ⟨d, ds, rfl, nonzero⟩ := ih (by omega)
    exact ⟨d, ds ++ [asciiDigit n], rfl, nonzero⟩

/-! ### The console -/

/-- Events are rendered one after another (R61). -/
theorem renderOut_append (term : List Byte) (xs ys : List OutEvent) :
    renderOut term (xs ++ ys) = renderOut term xs ++ renderOut term ys := by
  induction xs with
  | nil => rfl
  | cons e xs ih => simp [renderOut, ih]

/-- One event is its bytes and the terminator (R58, R59, R61). -/
theorem renderOut_singleton (term : List Byte) (e : OutEvent) : renderOut term [e] = e.bytes ++ term :=
  List.append_nil _

/-- Settles O57, by induction on the digits and on the list of events. -/
theorem consoleRendering : Obligations.ConsoleRendering := by
  refine ⟨fun n => ⟨digitsValue_decimal n, decimal_digits n, ?_, fun pos d head => ?_⟩, fun n neg => if_pos neg,
    fun n nonneg => if_neg (by omega), fun term b => renderOut_singleton term (.char b),
    fun term n => renderOut_singleton term (.int n), renderOut_append⟩
  · rintro rfl
    exact decimal_of_lt 0 (by decide)
  · obtain ⟨d', ds, e, nonzero⟩ := decimal_leading n pos
    rw [e] at head
    cases head
    exact nonzero

/-! ### The host's load -/

/-- The memory after an image's Words have been written to it, in order (R177). -/
def Memory.writeAll (m : Memory) (image : List (Nat × Word)) : Memory := image.foldl (fun m c => m.write c.1 c.2) m

/-- Each address reads as the last Word the image has for it, else as before (R177). -/
theorem Memory.read_writeAll (m : Memory) (image : List (Nat × Word)) (a : Nat) :
    (m.writeAll image).read a = image.foldl (fun v c => if c.1 = a then c.2 else v) (m.read a) := by
  induction image generalizing m with
  | nil => rfl
  | cons c image ih =>
    have first : (m.write c.1 c.2).read a = if c.1 = a then c.2 else m.read a := by
      rw [Memory.read_write]
      simp only [eq_comm]
    exact (ih (m.write c.1 c.2)).trans (by rw [first]; rfl)

/-- A load is accepted exactly inside storage, and then writes the image's Words and nothing else (R177, R185). -/
theorem State.load_eq_ok_iff (s t : State) (image : List (Nat × Word)) :
    s.load image = .ok t ↔ (∀ p ∈ image, p.1 < s.cfg.memWords) ∧ t = { s with mem := s.mem.writeAll image } := by
  induction image generalizing s with
  | nil => simp [State.load, Memory.writeAll, eq_comm]
  | cons c image ih =>
    unfold State.load
    split
    · rename_i inside
      rw [ih]
      simp [inside, Memory.writeAll]
    · rename_i outside
      simp [outside]

/-- Creating and loading is accepted exactly under legal parameters and inside storage (R9, R175, R177). -/
theorem State.boot_eq_ok_iff (c : Config) (image : List (Nat × Word)) (flag : Bool) (s : State) :
    State.boot c image flag = .ok s ↔
      c.wf = true ∧ (∀ p ∈ image, p.1 < c.memWords) ∧
        s = { State.create c with mem := Memory.writeAll [] image, run := flag } := by
  have accepted := fun t => State.load_eq_ok_iff (State.create c) t image
  constructor
  · intro h
    unfold State.boot at h
    split at h
    · rename_i legal
      cases load : (State.create c).load image with
      | ok t =>
        obtain ⟨inside, rfl⟩ := (accepted t).mp load
        rw [load] at h
        cases h
        exact ⟨legal, inside, rfl⟩
      | error e =>
        rw [load] at h
        cases h
    · cases h
  · rintro ⟨legal, inside, rfl⟩
    rw [State.boot, if_pos legal, (accepted _).mpr ⟨inside, rfl⟩]
    rfl

/-- An image inside storage leaves memory in canonical form and inside the bound (R36, R40 (g)). -/
theorem Memory.writeAll_nil_wf (c : Config) (image : List (Nat × Word)) (inside : ∀ p ∈ image, p.1 < c.memWords) :
    (Memory.writeAll [] image).wf ∧ (Memory.writeAll [] image).within c.memWords := by
  obtain ⟨form, bound⟩ := State.create_mem_wf c
  obtain ⟨form', bound', _⟩ :=
    State.load_keeps image (State.create c) _ ((State.load_eq_ok_iff _ _ _).mpr ⟨inside, rfl⟩) form bound
  exact ⟨form', bound'⟩

/-- Settles O58, by what an accepted load writes. -/
theorem bootLoadsTheImage : Obligations.BootLoadsTheImage := by
  intro c image flag
  have accepted := State.boot_eq_ok_iff c image flag
  refine ⟨⟨fun ⟨s, h⟩ => ?_, fun ⟨legal, inside⟩ => ⟨_, (accepted _).mpr ⟨legal, inside, rfl⟩⟩⟩, fun s h => ?_⟩
  · obtain ⟨legal, inside, _⟩ := (accepted s).mp h
    exact ⟨legal, inside⟩
  · obtain ⟨_, inside, rfl⟩ := (accepted s).mp h
    obtain ⟨form, bound⟩ := Memory.writeAll_nil_wf c image inside
    exact ⟨rfl, Memory.read_writeAll [] image,
      (State.inv_iff _).mpr ⟨⟨form, bound, nofun⟩, controlInv_of_phase1 _ rfl⟩⟩

/-! ### The debug snapshots -/

/-- Settles O59: the window is the range of addresses from start, and ONE reads as 1. -/
theorem snapshotsShowTheState : Obligations.SnapshotsShowTheState := by
  refine ⟨fun s start count => ⟨?_, fun outside => ?_, fun k inside => ?_⟩, fun _ => rfl⟩
  · simp [State.snapshotMemory]
  · have empty : min (start + count) s.cfg.memWords - start = 0 := by omega
    simp [State.snapshotMemory, empty]
  · have window : k < min (start + count) s.cfg.memWords - start := by omega
    simp only [State.snapshotMemory, List.getElem?_map, List.getElem?_range window, Option.map_some]

end Sys2Proof.Machine
end

section
/-! SUPPORT. Memory accesses by region (spec/20_memory.md R55, R56) and the handlers phase by phase (spec/41 to
spec/45), one lemma per phase that does something. -/

namespace Sys2Proof.Machine

/-! ### MemRead and MemWrite by region -/

/-- The fault of a read in the I/O region (R57). -/
theorem readFault_io (c : Config) (a : Word) (h : c.ioBoundary.toNat ≤ a.toNat) : readFault c a = .uReadIo a := if_pos h

/-- The fault of a read in the hole (R62). -/
theorem readFault_hole (c : Config) (a : Word) (h : a.toNat < c.ioBoundary.toNat) : readFault c a = .uOobRead a :=
  if_neg (Nat.not_le.mpr h)

/-- A read outside storage faults (R57, R62). -/
theorem State.memRead_outside (s : State) (a : Word) (h : s.cfg.memWords ≤ a.toNat) :
    s.memRead a = .error (readFault s.cfg a) := by
  have outside : isStorage s.cfg a = false := (not_isStorage_iff _ _).mpr h
  rcases s.memRead_cases a with ⟨inside, _⟩ | ⟨_, io, e⟩ | ⟨_, hole, e⟩
  · cases outside.symm.trans inside
  · rw [e, readFault_io _ _ ((isIo_iff _ _).mp io)]
  · rw [e, readFault_hole _ _ ((not_isIo_iff _ _).mp hole)]

/-- Settles O22: the three regions. -/
theorem memReadByRegion : Obligations.MemReadByRegion := by
  refine fun s a => ⟨fun h => s.memRead_storage a ((isStorage_iff _ _).mpr h), fun h io => ?_, fun h hole => ?_⟩
  · rw [s.memRead_outside a h, readFault_io _ _ io]
  · rw [s.memRead_outside a h, readFault_hole _ _ hole]

section MemWrite

variable (s : State) (a v : Word)

theorem State.memWrite_storage (h : a.toNat < s.cfg.memWords) :
    s.memWrite a v = .ok { s with mem := s.mem.write a.toNat v } := by
  simp [State.memWrite, (isStorage_iff _ _).mpr h]

variable (outside : s.cfg.memWords ≤ a.toNat)
include outside

theorem State.memWrite_hole (hole : a.toNat < s.cfg.ioBoundary.toNat) : s.memWrite a v = .error (.uOobWrite a) := by
  simp [State.memWrite, (not_isStorage_iff _ _).mpr outside, (not_isIo_iff _ _).mpr hole]

variable (io : s.cfg.ioBoundary.toNat ≤ a.toNat)
include io

theorem State.memWrite_char (h : a = s.cfg.ioCharPort) :
    s.memWrite a v = .ok { s with out := s.out ++ [.char (v.extractLsb' 0 8)] } := by
  have low : v.setWidth 8 = v.extractLsb' 0 8 := by ext i hi; simp
  rw [State.memWrite, (not_isStorage_iff _ _).mpr outside, (isIo_iff _ _).mpr io, ← low]
  exact if_pos h

theorem State.memWrite_int (hc : a ≠ s.cfg.ioCharPort) (h : a = s.cfg.ioIntPort) :
    s.memWrite a v = .ok { s with out := s.out ++ [.int v.toInt] } := by
  rw [State.memWrite, (not_isStorage_iff _ _).mpr outside, (isIo_iff _ _).mpr io]
  exact (if_neg hc).trans (if_pos h)

theorem State.memWrite_discarded (hc : a ≠ s.cfg.ioCharPort) (hi : a ≠ s.cfg.ioIntPort) :
    s.memWrite a v = .ok { s with diag := s.diag ++ [a] } := by
  rw [State.memWrite, (not_isStorage_iff _ _).mpr outside, (isIo_iff _ _).mpr io]
  exact (if_neg hc).trans (if_neg hi)

end MemWrite

/-- A Word as a signed number, by its top bit (R59). -/
theorem toInt_eq_of_top_bit (v : Word) :
    v.toInt = if v.getLsbD 31 then (v.toNat : Int) - 2 ^ 32 else (v.toNat : Int) := by
  rw [BitVec.toInt_eq_msb_cond, BitVec.msb_eq_getLsbD_last]
  rfl

/-- Settles O23: the five cases of a write, and read after write in the one that writes memory. -/
theorem memWriteByRegion : Obligations.MemWriteByRegion := by
  intro s a v
  refine ⟨fun inside => ⟨_, s.memWrite_storage a v inside, rfl, ?_, fun b hb => ?_⟩,
    fun outside => ⟨s.memWrite_hole a v outside, fun io => ⟨s.memWrite_char a v outside io, ?_,
      s.memWrite_discarded a v outside io⟩⟩⟩
  · have read := State.memRead_storage { s with mem := s.mem.write a.toNat v } a ((isStorage_iff _ _).mpr inside)
    rw [read, Memory.read_write_self]
  · exact Memory.read_write_of_ne _ _ _ _ hb
  · rw [← toInt_eq_of_top_bit]
    exact s.memWrite_int a v outside io

/-! ### The instructions that read an operand, and those that use the datapath -/

/-- SIR takes the Word at SAR (R115, R125). -/
theorem State.readToSir_storage (s : State) (h : s.sar.toNat < s.cfg.memWords) :
    s.readToSir = .next { s with sir := s.mem.read s.sar.toNat } := by
  rw [State.readToSir, s.memRead_storage _ ((isStorage_iff _ _).mpr h)]

/-- A read outside storage latches the fault alone (R57, R62, R104). -/
theorem State.readToSir_outside (s : State) (h : s.cfg.memWords ≤ s.sar.toNat) :
    s.readToSir = .next { s with fault := some (readFault s.cfg s.sar) } := by
  rw [State.readToSir, s.memRead_outside _ h]
  rfl

/-- An ALU-group instruction runs the common handler with its operation (R115 to R120). -/
theorem exec_of_aluMeaning (i : Instr) (a : BitVec 28) (op : Word → Word → Word) (hi : aluMeaning i = some (a, op)) :
    ∃ tag, ∀ s, exec i s = aluGroup tag op a s := by
  cases i with
  | and | or | xor | add | eql => cases hi; exact ⟨_, fun _ => rfl⟩
  | _ => cases hi

/-- A rotate runs the common handler with its amount (R137, R138). -/
theorem exec_of_rotateMeaning (i : Instr) (k : Word) (hi : rotateMeaning i = some k) (s : State) :
    exec i s = rotateGroup k s := by
  cases i with
  | rar | rrn => cases hi; rfl
  | _ => cases hi

section Reads

variable {i : Instr} {a : BitVec 28} (hi : ReadsOperand i a) (s : State)
include hi

/-- Phase 6 of LDV and the ALU group: SAR takes the operand (R115, R125). -/
theorem exec_latchAddress (hp : s.ph = 6) : exec i s = .next { s with sar := operandWord a } := by
  rcases hi with rfl | ⟨op, hi⟩
  · simpa [hp] using execLdv_cases a s
  · obtain ⟨tag, e⟩ := exec_of_aluMeaning i a op hi
    simpa [hp, e] using aluGroup_cases tag op a s

/-- Phase 9 of LDV and the ALU group: the read through SAR (R115, R125). -/
theorem exec_readOperand (hp : s.ph = 9) : exec i s = s.readToSir := by
  rcases hi with rfl | ⟨op, hi⟩
  · simpa [hp] using execLdv_cases a s
  · obtain ⟨tag, e⟩ := exec_of_aluMeaning i a op hi
    simpa [hp, e] using aluGroup_cases tag op a s

theorem exec_readOperand_storage (hp : s.ph = 9) (inside : s.sar.toNat < s.cfg.memWords) :
    exec i s = .next { s with sir := s.mem.read s.sar.toNat } :=
  (exec_readOperand hi s hp).trans (s.readToSir_storage inside)

theorem exec_readOperand_outside (hp : s.ph = 9) (outside : s.cfg.memWords ≤ s.sar.toNat) :
    exec i s = .next { s with fault := some (readFault s.cfg s.sar) } :=
  (exec_readOperand hi s hp).trans (s.readToSir_outside outside)

/-- Phase 8 of LDV and the ALU group does nothing (R115, R125). -/
theorem exec_reads_phase8 (hp : s.ph = 8) : exec i s = .next s := by
  rcases hi with rfl | ⟨op, hi⟩
  · simpa [hp] using execLdv_cases a s
  · obtain ⟨tag, e⟩ := exec_of_aluMeaning i a op hi
    simpa [hp, e] using aluGroup_cases tag op a s

end Reads

section Datapath

variable {i : Instr} (uses : UsesDatapath i) (s : State)
include uses

/-- Phase 7 of the ALU group, NOT and the rotates: X takes ACC (R115, R136 to R138). -/
theorem exec_latchAcc (hp : s.ph = 7) : exec i s = .next { s with x := s.acc } := by
  rcases uses with rfl | ⟨a, op, hi⟩ | ⟨k, hi⟩
  · simpa [hp] using execNot_cases s
  · obtain ⟨tag, e⟩ := exec_of_aluMeaning i a op hi
    simpa [hp, e] using aluGroup_cases tag op a s
  · simpa [hp, exec_of_rotateMeaning i k hi] using rotateGroup_cases k s

/-- Phase 12 of the ALU group, NOT and the rotates: ACC takes Z (R115, R136 to R138). -/
theorem exec_accFromZ (hp : s.ph = 12) : exec i s = .next { s with acc := s.z } := by
  rcases uses with rfl | ⟨a, op, hi⟩ | ⟨k, hi⟩
  · simpa [hp] using execNot_cases s
  · obtain ⟨tag, e⟩ := exec_of_aluMeaning i a op hi
    simpa [hp, e] using aluGroup_cases tag op a s
  · simpa [hp, exec_of_rotateMeaning i k hi] using rotateGroup_cases k s

end Datapath

/-! ### The ALU group and LDV -/

/-- Phase 10 of the ALU group: Y takes SIR (R115). -/
theorem exec_latchOperand {i : Instr} {a : BitVec 28} {op : Word → Word → Word} (hi : aluMeaning i = some (a, op))
    (s : State) (hp : s.ph = 10) : ∃ tag, exec i s = .next { s with y := s.sir, alu := tag } := by
  obtain ⟨tag, e⟩ := exec_of_aluMeaning i a op hi
  exact ⟨tag, by simpa [hp, e] using aluGroup_cases tag op a s⟩

/-- Phase 11 of the ALU group: Z takes the operation on X and Y (R115 to R120). -/
theorem exec_combine {i : Instr} {a : BitVec 28} {op : Word → Word → Word} (hi : aluMeaning i = some (a, op))
    (s : State) (hp : s.ph = 11) : exec i s = .next { s with z := op s.x s.y } := by
  obtain ⟨tag, e⟩ := exec_of_aluMeaning i a op hi
  simpa [hp, e] using aluGroup_cases tag op a s

/-- Settles O25, phase by phase. -/
theorem aluGroupPhases : Obligations.AluGroupPhases := by
  intro i a op s hi
  have reads : ReadsOperand i a := .inr ⟨op, hi⟩
  have uses : UsesDatapath i := .inr (.inl ⟨a, op, hi⟩)
  exact ⟨exec_latchAddress reads s, exec_latchAcc uses s, exec_reads_phase8 reads s,
    exec_readOperand_storage reads s, exec_readOperand_outside reads s,
    exec_latchOperand hi s, exec_combine hi s, exec_accFromZ uses s⟩

/-- Phase 10 of LDV: ACC takes SIR (R125). -/
theorem exec_ldv_accFromSir (a : BitVec 28) (s : State) (hp : s.ph = 10) :
    exec (.ldv a) s = .next { s with acc := s.sir } := by
  simpa [hp] using execLdv_cases a s

/-- LDV's other phases do nothing (R125). -/
theorem exec_ldv_idle (a : BitVec 28) (s : State) (h6 : s.ph ≠ 6) (h9 : s.ph ≠ 9) (h10 : s.ph ≠ 10) :
    exec (.ldv a) s = .next s := by
  simpa [h6, h9, h10] using execLdv_cases a s

/-- Settles O26, phase by phase. -/
theorem ldvPhases : Obligations.LdvPhases := by
  intro a s
  have reads : ReadsOperand (.ldv a) a := .inl rfl
  exact ⟨exec_latchAddress reads s,
    exec_readOperand_storage reads s, exec_readOperand_outside reads s,
    exec_ldv_accFromSir a s, fun _ => exec_ldv_idle a s (by omega) (by omega) (by omega)⟩

/-! ### STV -/

/-- Phase 6 of STV: SIR takes ACC (R126). -/
theorem exec_stv_latch (a : BitVec 28) (s : State) (hp : s.ph = 6) :
    exec (.stv a) s = .next { s with sir := s.acc } := by
  simpa [hp] using execStv_cases a s

/-- STV's phases from 8 on do nothing (R126). -/
theorem exec_stv_idle (a : BitVec 28) (s : State) (hp : 8 ≤ s.ph) : exec (.stv a) s = .next s := by
  have h6 : s.ph ≠ 6 := by omega
  have h7 : s.ph ≠ 7 := by omega
  simpa [h6, h7] using execStv_cases a s

section Store

variable (a : BitVec 28) (s : State) (hp : s.ph = 7)
include hp

/-- Phase 7 of STV is the write of SIR through the operand, with SAR written (R126). -/
theorem exec_stv_store : exec (.stv a) s = storePhase a s := by
  simpa [hp] using execStv_cases a s

theorem exec_stv_of_memWrite_ok {t : State}
    (h : State.memWrite { s with sar := operandWord a } (operandWord a) s.sir = .ok t) :
    exec (.stv a) s = .next t := by
  rw [exec_stv_store a s hp, storePhase, h]

/-- A store that faults commits neither of its two transfers (R104, R126). -/
theorem exec_stv_of_memWrite_error {c : FaultCause}
    (h : State.memWrite { s with sar := operandWord a } (operandWord a) s.sir = .error c) :
    exec (.stv a) s = .next { s with fault := some c } := by
  rw [exec_stv_store a s hp, storePhase, h]
  rfl

theorem exec_stv_storage (h : (operandWord a).toNat < s.cfg.memWords) :
    exec (.stv a) s =
      .next { s with sar := operandWord a, mem := s.mem.write (operandWord a).toNat s.sir } :=
  exec_stv_of_memWrite_ok a s hp (State.memWrite_storage _ _ _ h)

variable (outside : s.cfg.memWords ≤ (operandWord a).toNat)
include outside

theorem exec_stv_hole (hole : (operandWord a).toNat < s.cfg.ioBoundary.toNat) :
    exec (.stv a) s = .next { s with fault := some (.uOobWrite (operandWord a)) } :=
  exec_stv_of_memWrite_error a s hp (State.memWrite_hole _ _ _ outside hole)

variable (io : s.cfg.ioBoundary.toNat ≤ (operandWord a).toNat)
include io

theorem exec_stv_char (h : operandWord a = s.cfg.ioCharPort) :
    exec (.stv a) s =
      .next { s with sar := operandWord a, out := s.out ++ [.char (s.sir.extractLsb' 0 8)] } :=
  exec_stv_of_memWrite_ok a s hp (State.memWrite_char _ _ _ outside io h)

theorem exec_stv_int (hc : operandWord a ≠ s.cfg.ioCharPort) (h : operandWord a = s.cfg.ioIntPort) :
    exec (.stv a) s = .next { s with sar := operandWord a, out := s.out ++ [.int s.sir.toInt] } :=
  exec_stv_of_memWrite_ok a s hp (State.memWrite_int _ _ _ outside io hc h)

theorem exec_stv_discarded (hc : operandWord a ≠ s.cfg.ioCharPort) (hi : operandWord a ≠ s.cfg.ioIntPort) :
    exec (.stv a) s = .next { s with sar := operandWord a, diag := s.diag ++ [operandWord a] } :=
  exec_stv_of_memWrite_ok a s hp (State.memWrite_discarded _ _ _ outside io hc hi)

end Store

/-- Settles O27, phase by phase and, in phase 7, region by region. -/
theorem stvPhases : Obligations.StvPhases := by
  intro a s
  exact ⟨exec_stv_latch a s, exec_stv_storage a s, exec_stv_hole a s,
    fun hp outside io => ⟨exec_stv_char a s hp outside io, exec_stv_int a s hp outside io,
      exec_stv_discarded a s hp outside io⟩,
    fun lo _ => exec_stv_idle a s lo⟩

/-- Settles O28: the store's one event, and the console's rendering of the longer list. -/
theorem portStoresEmitOneEvent : Obligations.PortStoresEmitOneEvent := by
  intro a s hp outside io
  have rendered (e : OutEvent) :
      renderOut s.cfg.lineTerminator (s.out ++ [e]) = s.console ++ (e.bytes ++ s.cfg.lineTerminator) := by
    rw [renderOut_append, renderOut_singleton]
    rfl
  refine ⟨fun char => ⟨_, exec_stv_char a s hp outside io char, rfl, rendered _⟩,
    fun notChar int => ⟨_, exec_stv_int a s hp outside io notChar int, rfl, ?_⟩, fun h => ?_, fun h => ?_⟩
  · rw [List.append_assoc]
    exact rendered (.int s.sir.toInt)
  · rw [h]
    decide
  · rw [h]
    decide

/-! ### LDC, the jumps and HLT -/

/-- Phase 6 of LDC: ACC takes the constant (R127). -/
theorem exec_ldc_phase6 (c : BitVec 28) (s : State) (hp : s.ph = 6) :
    exec (.ldc c) s = .next { s with acc := operandWord c } := by
  simpa [hp] using execLdc_cases c s

theorem exec_ldc_idle (c : BitVec 28) (s : State) (hp : 7 ≤ s.ph) : exec (.ldc c) s = .next s := by
  have h6 : s.ph ≠ 6 := by omega
  simpa [h6] using execLdc_cases c s

/-- Phase 6 of JMP: IAR takes the target (R130). -/
theorem exec_jmp_phase6 (d : BitVec 28) (s : State) (hp : s.ph = 6) :
    exec (.jmp d) s = .next { s with iar := operandWord d } := by
  simpa [hp] using execJmp_cases d s

theorem exec_jmp_idle (d : BitVec 28) (s : State) (hp : 7 ≤ s.ph) : exec (.jmp d) s = .next s := by
  have h6 : s.ph ≠ 6 := by omega
  simpa [h6] using execJmp_cases d s

/-- Phase 6 of JMN with ACC negative: IAR takes the target (R131). -/
theorem exec_jmn_taken (d : BitVec 28) (s : State) (hp : s.ph = 6) (negative : s.acc.toInt < 0) :
    exec (.jmn d) s = .next { s with iar := operandWord d } := by
  simpa [hp, (isNegative_iff _).mpr negative] using execJmn_cases d s

/-- Phase 6 of JMN with ACC not negative does nothing (R131). -/
theorem exec_jmn_not_taken (d : BitVec 28) (s : State) (nonnegative : 0 ≤ s.acc.toInt) :
    exec (.jmn d) s = .next s := by
  have bit : isNegative s.acc = false := by
    simpa using mt (isNegative_iff s.acc).mp (Int.not_lt.mpr nonnegative)
  simpa [bit] using execJmn_cases d s

theorem exec_jmn_idle (d : BitVec 28) (s : State) (hp : 7 ≤ s.ph) : exec (.jmn d) s = .next s := by
  have h6 : s.ph ≠ 6 := by omega
  simpa [h6] using execJmn_cases d s

/-- HLT's phase 12 clears RUN (R145). -/
theorem exec_hlt_phase12 (s : State) (hp : s.ph = 12) : exec .hlt s = .next { s with run := false } := by
  simpa [hp] using execHlt_cases s

theorem exec_hlt_idle (s : State) (hp : s.ph ≠ 12) : exec .hlt s = .next s := by
  simpa [hp] using execHlt_cases s

/-- Settles O29, instruction by instruction and phase by phase. -/
theorem ldcJmpJmnHltPhases : Obligations.LdcJmpJmnHltPhases := by
  intro v s
  exact ⟨exec_ldc_phase6 v s, fun lo _ => exec_ldc_idle v s lo, exec_jmp_phase6 v s, fun lo _ => exec_jmp_idle v s lo,
    exec_jmn_taken v s, fun _ => exec_jmn_not_taken v s, fun lo _ => exec_jmn_idle v s lo,
    fun _ hi => exec_hlt_idle s (by omega), exec_hlt_phase12 s⟩

/-! ### NOT and the rotates -/

/-- Phases 6, 8 and 9 of NOT and the rotates do nothing (R136 to R138). -/
theorem exec_unary_idle (i : Instr) (s : State) (hi : i = .not ∨ ∃ k, rotateMeaning i = some k)
    (hp : s.ph = 6 ∨ s.ph = 8 ∨ s.ph = 9) : exec i s = .next s := by
  have h7 : s.ph ≠ 7 := by omega
  have h10 : s.ph ≠ 10 := by omega
  have h11 : s.ph ≠ 11 := by omega
  have h12 : s.ph ≠ 12 := by omega
  rcases hi with rfl | ⟨k, hi⟩
  · simpa [h7, h10, h11, h12] using execNot_cases s
  · simpa [h7, h10, h11, h12, exec_of_rotateMeaning i k hi] using rotateGroup_cases k s

/-- Phase 10 of NOT writes the tag alone (R136). -/
theorem exec_not_phase10 (s : State) (hp : s.ph = 10) : ∃ tag, exec .not s = .next { s with alu := tag } :=
  ⟨.not, by simpa [hp] using execNot_cases s⟩

/-- Phase 11 of NOT: Z takes the complement of X (R136). -/
theorem exec_not_complement (s : State) (hp : s.ph = 11) : exec .not s = .next { s with z := ~~~s.x } := by
  simpa [hp] using execNot_cases s

/-- R135's rotate is the library's. -/
theorem rotr_eq_rotateRight (v : Word) (k : Nat) (hk : k ≤ 32) : rotr v k = v.rotateRight k := by
  rcases Nat.lt_or_eq_of_le hk with lt | rfl
  · rw [BitVec.rotateRight, Nat.mod_eq_of_lt lt]
    rfl
  · rw [rotr_width]
    exact (rotr_zero v).symm

section Rotate

variable {i : Instr} {k : Word} (hi : rotateMeaning i = some k) (s : State)
include hi

/-- Phase 10 of a rotate: Y takes the amount (R137, R138). -/
theorem exec_latchAmount (hp : s.ph = 10) : ∃ tag, exec i s = .next { s with y := k, alu := tag } :=
  ⟨.rot, by simpa [hp, exec_of_rotateMeaning i k hi] using rotateGroup_cases k s⟩

theorem exec_rotateToZ (hp : s.ph = 11) : exec i s = .next s.rotateToZ := by
  simpa [hp, exec_of_rotateMeaning i k hi] using rotateGroup_cases k s

/-- Phase 11 of a rotate by at most 32: Z takes X rotated (R137, R138). -/
theorem exec_rotate (hp : s.ph = 11) (hy : s.y.toNat ≤ 32) :
    exec i s = .next { s with z := s.x.rotateRight s.y.toNat } := by
  rw [exec_rotateToZ hi s hp, s.rotateToZ_of_le hy, rotr_eq_rotateRight _ _ hy]

/-- Phase 11 of a rotate by more than 32: Z takes a free value (R139). -/
theorem exec_rotate_draws (hp : s.ph = 11) (hy : 32 < s.y.toNat) :
    ∃ v, exec i s = .next { s with z := v, rotDraws := s.rotDraws + 1 } :=
  ⟨_, by rw [exec_rotateToZ hi s hp, s.rotateToZ_of_gt hy]⟩

end Rotate

/-- Settles O30, phase by phase. -/
theorem notRarRrnPhases : Obligations.NotRarRrnPhases := by
  refine ⟨fun i s hi => ?_, fun s => ⟨exec_not_phase10 s, exec_not_complement s⟩,
    fun i k s hi => ⟨exec_latchAmount hi s, exec_rotate hi s, exec_rotate_draws hi s⟩⟩
  have uses : UsesDatapath i := hi.imp_right .inr
  exact ⟨exec_unary_idle i s hi, exec_latchAcc uses s, exec_accFromZ uses s⟩

end Sys2Proof.Machine
end

section
/-! SUPPORT. The fetch as a run of steps (spec/40_sequencer.md R96 to R100, R106), its faults, and the run of an
instruction's execute phases (R101 to R104). -/

namespace Sys2Proof.Machine

/-! ### The fetch phases 3 and 4 -/

/-- Phase 3: Z takes X + Y, PH advances, and nothing else changes (R98, R103). -/
theorem step_phase3 (s : State) (he : s.enabled) (hp : s.ph = 3) :
    step s = .next { s with z := s.x + s.y, ph := 4 } := by
  have did : fetchPhase s = .next { s with z := s.x + s.y } := by
    simpa [hp] using fetchPhase_cases s (by omega)
  rw [step_of_fetchPhase s _ he (by omega) (by omega) did he.2, hp]
  rfl

/-- Settles O10: the sum of two Words is the sum of their numbers modulo 2^32. -/
theorem fetchAddsModulo : Obligations.FetchAddsModulo := by
  intro s he hp
  have sum : BitVec.ofNat 32 ((s.x.toNat + s.y.toNat) % 2 ^ 32) = s.x + s.y := by
    apply BitVec.eq_of_toNat_eq
    rw [BitVec.toNat_ofNat, Nat.mod_mod, BitVec.toNat_add]
  rw [sum]
  exact step_phase3 s he hp

/-- Phase 4 outside storage latches the fault of the read and changes nothing else (R57, R62, R99, R104). -/
theorem step_phase4_outside (s : State) (he : s.enabled) (hp : s.ph = 4) (outside : s.cfg.memWords ≤ s.sar.toNat) :
    step s = .next { s with fault := some (readFault s.cfg s.sar) } := by
  have did : fetchPhase s = s.raise (readFault s.cfg s.sar) := by
    simp only [fetchPhase, hp, fetchRead, s.memRead_outside _ outside]
  rw [step_of_enabled s he, phaseStep, if_neg (by omega), if_pos (by omega), did]
  rfl

/-- Settles O11: phase 4 in the three regions. -/
theorem fetchReadsAtSar : Obligations.FetchReadsAtSar := by
  refine fun s he hp => ⟨fun inside => step_phase4_storage s he hp ((isStorage_iff _ _).mpr inside),
    fun outside io => ?_, fun outside hole => ?_⟩
  · rw [step_phase4_outside s he hp outside, readFault_io _ _ io]
  · rw [step_phase4_outside s he hp outside, readFault_hole _ _ hole]

/-! ### The whole fetch -/

/-- Phases 1 to 3 from any address (R96 to R98). -/
theorem steps_three (s : State) (he : s.enabled) (hp : s.ph = 1) :
    steps 3 s = .next { s with sar := s.iar, x := s.iar, y := 1, alu := .inc, z := s.iar + 1, ph := 4 } := by
  rw [steps_succ_next 2 s _ (step_phase1 s he hp),
    steps_succ_next 1 _ _ (step_phase2 { s with sar := s.iar, x := s.iar, ph := 2 } he rfl),
    steps_succ_next 0 _ _ (step_phase3 { s with sar := s.iar, x := s.iar, y := 1, alu := .inc, ph := 3 } he rfl),
    steps_zero]

/-- Phases 4 and 5 with SAR a storage address (R99, R100). -/
theorem steps_two_of_phase4 (s : State) (he : s.enabled) (hp : s.ph = 4) (storage : isStorage s.cfg s.sar = true) :
    steps 2 s = .next { s with iar := s.z, ci := decodeWord (s.mem.read s.sar.toNat), sir := s.mem.read s.sar.toNat,
                               ir := s.mem.read s.sar.toNat, ph := 6 } := by
  rw [steps_succ_next 1 s _ (step_phase4_storage s he hp storage), steps_succ_of_next 0 _ _ (steps_zero _)]
  exact step_phase5 _ he rfl

/-- Phases 1 to 5 from a storage address (R106). -/
theorem steps_five (s : State) (w : Word) (h : s.atWord w) : steps 5 s = .next (s.afterFetch w) := by
  obtain ⟨he, hp, storage, rfl⟩ := h
  rw [steps_add 3 2 s _ (steps_three s he hp)]
  exact steps_two_of_phase4 _ he rfl storage

/-- Settles O12: the fetch's state, with the tag it leaves. -/
theorem fetchNetEffect : Obligations.FetchNetEffect :=
  fun s w h => ⟨.inc, steps_five s w h⟩

/-- A Word put at a storage address is there to be fetched. -/
theorem State.placeWord_atWord (s : State) (w : Word) (he : s.enabled) (hp : s.ph = 1)
    (storage : isStorage s.cfg s.iar = true) : (s.placeWord w).atWord w := by
  refine ⟨he, hp, storage, ?_⟩
  rw [State.placeWord_mem, if_pos storage, State.placeWord_iar, Memory.read_write_self]

/-- Settles O13: withFetchWord is the fetch of the Word put at IAR. -/
theorem withFetchWordIsTheFetch : Obligations.WithFetchWordIsTheFetch := by
  intro s w he hp storage
  have whole : tableWord 32 w.toNat = w := by
    rw [tableWord, Nat.mod_eq_of_lt w.isLt, BitVec.ofNat_toNat, BitVec.setWidth_eq]
  refine ⟨.inc, ?_⟩
  rw [steps_five _ w (s.placeWord_atWord w he hp storage), State.withFetchWord, whole]
  rfl

/-- Settles O14: the state after the fetch holds none of the overwritten fields' old values. -/
theorem fetchClobbersScratchRegisters : Obligations.FetchClobbersScratchRegisters := by
  intro s w sar sir x y z ir ci alu h
  rw [steps_five s w h]
  exact steps_five _ w h

/-- Settles O20: the first three phases do not look at the address; the fourth reads there. -/
theorem fetchOutsideStorageFaults : Obligations.FetchOutsideStorageFaults := by
  intro s he hp outside
  refine ⟨.inc, ?_⟩
  rw [steps_succ_of_next 3 s _ (steps_three s he hp)]
  exact step_phase4_outside _ he rfl outside

/-- An execute phase with an opcode number of no mnemonic latches the fault and changes nothing else (R101, R151). -/
theorem step_illegal (s : State) (he : s.enabled) (lo : 6 ≤ s.ph) (hi : s.ph ≤ 12)
    (free : ∀ M, s.cfg.opcodes.opc M ≠ s.ci.opcode) :
    step s = .next { s with fault := some (.fInvalidOpcode s.ci.opcode) } := by
  rw [step_of_enabled s he, phaseStep, if_neg (by omega), if_neg (by omega), executePhase,
    (selectInstr_eq_error _ _ _).mpr ⟨rfl, free⟩]
  rfl

/-- Settles O19: the fetch does not look at the opcode number; phase 6 does. -/
theorem illegalOpcodeFaultsInPhaseSix : Obligations.IllegalOpcodeFaultsInPhaseSix := by
  intro s w h free
  have six : steps 6 s =
      .next { s.afterFetch w with fault := some (.fInvalidOpcode (decodeWord w).opcode) } := by
    rw [steps_succ_of_next 5 s _ (steps_five s w h)]
    exact step_illegal (s.afterFetch w) h.1 (Nat.le_refl 6) (Nat.le_add_right 6 6) free
  refine ⟨⟨.inc, six⟩, ?_⟩
  rw [steps_succ_of_next 6 s _ six]
  exact step_of_faulted _ _ rfl

/-- The state after the fetch is in phase 6 of the instruction fetched (R101, R106). -/
theorem afterFetch_inPhase (s : State) (w : Word) (i : Instr) (h : s.atInstr w i) : (s.afterFetch w).inPhase 6 i :=
  ⟨h.1.1, rfl, h.2⟩

/-- Settles O8: the step of an execute phase, and the fetch that leads to the first. -/
theorem stepRunsDecodedInstruction : Obligations.StepRunsDecodedInstruction := by
  refine ⟨fun s p i lo hi at_ => step_of_inPhase s p i lo hi at_, fun s w i h => ?_⟩
  have at6 := afterFetch_inPhase s w i h
  exact ⟨_, steps_five s w h.1, at6, step_of_inPhase _ 6 i (by decide) (by decide) at6⟩

/-! ### The execute phases as a run -/

/-- k steps from s lead to t, in phase k + 1 of the instruction i. -/
structure Executing (s : State) (i : Instr) (k : Nat) (t : State) : Prop where
  run : steps k s = .next t
  at_ : t.inPhase (k + 1) i

namespace Executing

variable {s t u : State} {i : Instr} {k : Nat}

theorem ph (h : Executing s i k t) : t.ph = k + 1 := h.at_.2.1

/-- The fetch leads to phase 6 (R106). -/
theorem ofFetch {w : Word} (h : s.atInstr w i) : Executing s i 5 (s.afterFetch w) :=
  ⟨steps_five s w h.1, afterFetch_inPhase s w i h⟩

/-- The next step is the handler's phase and the end of the phase (R101, R103). -/
theorem steps_succ (h : Executing s i k t) (lo : 5 ≤ k) (hi : k ≤ 11) (did : exec i t = .next u)
    (quiet : u.fault = t.fault) : steps (k + 1) s = .next { u with ph := nextPhase (k + 1) } := by
  obtain ⟨_, _, ph, _⟩ := (effect_of_exec i t u did).keeps_control
  have noFault : u.fault = none := quiet.trans h.at_.1.2
  rw [steps_succ_of_next k s t h.run, step_of_inPhase t (k + 1) i (by omega) (by omega) h.at_, did, endPhase_next,
    u.endPhase_of_none noFault, ph, h.ph]

/-- A phase before the twelfth leads to the next. -/
theorem phase (h : Executing s i k t) (did : exec i t = .next u) (quiet : u.fault = t.fault)
    (lo : 5 ≤ k := by decide) (hi : k ≤ 10 := by decide) : Executing s i (k + 1) { u with ph := k + 2 } := by
  have next : nextPhase (k + 1) = k + 2 := if_neg (by omega)
  have effect := effect_of_exec i t u did
  have notLast : t.ph ≠ 12 := by
    rw [h.ph]
    omega
  obtain ⟨_, ci, _, cfg⟩ := effect.keeps_control
  obtain ⟨⟨run, fault⟩, _, selected⟩ := h.at_
  refine ⟨?_, ⟨(effect.keeps_run notLast).trans run, quiet.trans fault⟩, rfl, ?_⟩
  · rw [h.steps_succ lo (by omega) did quiet, next]
  · simpa [ci, cfg] using selected

/-- The twelfth phase leads to phase 1 (R103). -/
theorem last (h : Executing s i 11 t) (did : exec i t = .next u) (quiet : u.fault = t.fault) :
    steps 12 s = .next { u with ph := 1 } :=
  h.steps_succ (by decide) (by decide) did quiet

/-- A phase that raises a fault latches it and changes nothing else (R104). -/
theorem raises {c : FaultCause} (h : Executing s i k t) (did : exec i t = .next { t with fault := some c })
    (lo : 5 ≤ k := by decide) (hi : k ≤ 11 := by decide) : steps (k + 1) s = .next { t with fault := some c } := by
  rw [steps_succ_of_next k s t h.run, step_of_inPhase t (k + 1) i (by omega) (by omega) h.at_, did]
  rfl

/-- Phases that do nothing only advance PH. -/
theorem idleUntil (h : Executing s i k t) (j : Nat) (le : k ≤ j) (top : j ≤ 11)
    (idle : ∀ u : State, k < u.ph → u.ph ≤ j → exec i u = .next u) (lo : 5 ≤ k := by decide) :
    Executing s i j { t with ph := j + 1 } := by
  induction j, le using Nat.le_induction with
  | base =>
    rw [← h.ph]
    exact h
  | succ j le ih =>
    have before := ih (by omega) fun u lo hi => idle u lo (by omega)
    have did : exec i { t with ph := j + 1 } = .next { t with ph := j + 1 } :=
      idle _ (Nat.lt_succ_of_le le) le_rfl
    have after := before.phase did rfl (by omega) (by omega)
    exact after

/-- An instruction whose remaining phases do nothing is done. -/
theorem rest (h : Executing s i k t) (le : k ≤ 11) (idle : ∀ u : State, k < u.ph → exec i u = .next u)
    (lo : 5 ≤ k := by decide) : steps 12 s = .next { t with ph := 1 } := by
  have atLast := h.idleUntil 11 le le_rfl (fun u above _ => idle u above) lo
  have did : exec i { t with ph := 12 } = .next { t with ph := 12 } := idle _ (Nat.lt_succ_of_le le)
  have after := atLast.last did rfl
  exact after

end Executing

end Sys2Proof.Machine
end

section
/-! SUPPORT. The net effect of each instruction over its twelve phases (spec/41 to spec/45): the fetch, then its
handler's phases one after another. -/

namespace Sys2Proof.Machine

/-! ### The instructions that read an operand -/

/-- Phases 6 to 8 of LDV: SAR takes the operand (R125). -/
theorem Executing.ldv_addressed {s : State} {w : Word} {a : BitVec 28} (h : s.atInstr w (.ldv a)) :
    Executing s (.ldv a) 8 { s.afterFetch w with sar := operandWord a, ph := 9 } :=
  ((Executing.ofFetch h).phase (exec_latchAddress (.inl rfl) _ rfl) rfl).idleUntil 8 (by decide) (by decide)
    fun u _ _ => exec_ldv_idle a u (by omega) (by omega) (by omega)

/-- Phases 6 to 8 of the ALU group: SAR takes the operand, X takes ACC (R115). -/
theorem Executing.alu_addressed {s : State} {w : Word} {i : Instr} {a : BitVec 28} {op : Word → Word → Word}
    (h : s.atInstr w i) (hi : aluMeaning i = some (a, op)) :
    Executing s i 8 { s.afterFetch w with sar := operandWord a, x := s.acc, ph := 9 } := by
  have reads : ReadsOperand i a := .inr ⟨op, hi⟩
  have address := (Executing.ofFetch h).phase (exec_latchAddress reads _ rfl) rfl
  have acc := address.phase (exec_latchAcc (.inr (.inl ⟨a, op, hi⟩)) _ rfl) rfl
  exact acc.phase (exec_reads_phase8 reads _ rfl) rfl

/-- Settles O31: phases 9 to 12 of the ALU group, after SAR and X are latched. -/
theorem aluGroupNetEffect : Obligations.AluGroupNetEffect := by
  intro s w i a op h hi inside
  have read := (Executing.alu_addressed h hi).phase (exec_readOperand_storage (.inr ⟨op, hi⟩) _ rfl inside) rfl
  obtain ⟨tag, latched⟩ := exec_latchOperand hi _ read.ph
  have operand := read.phase latched rfl
  have result := operand.phase (exec_combine hi _ rfl) rfl
  exact ⟨tag, result.last (exec_accFromZ (.inr (.inl ⟨a, op, hi⟩)) _ rfl) rfl⟩

/-- Settles O32: phases 9 and 10 of LDV, after SAR is latched, and two that do nothing. -/
theorem ldvNetEffect : Obligations.LdvNetEffect := by
  intro s w a h inside
  have read := (Executing.ldv_addressed h).phase (exec_readOperand_storage (.inl rfl) _ rfl inside) rfl
  have acc := read.phase (exec_ldv_accFromSir a _ rfl) rfl
  exact ⟨.inc, acc.rest (by decide) fun u _ => exec_ldv_idle a u (by omega) (by omega) (by omega)⟩

/-- Settles O33: phase 9 reads through the operand that SAR holds by then. -/
theorem operandReadOutsideStorageFaults : Obligations.OperandReadOutsideStorageFaults := by
  intro s w i a h outside
  constructor
  · rintro rfl
    exact ⟨.inc, (Executing.ldv_addressed h).raises (exec_readOperand_outside (.inl rfl) _ rfl outside)⟩
  · intro op hi
    exact ⟨.inc, (Executing.alu_addressed h hi).raises (exec_readOperand_outside (.inr ⟨op, hi⟩) _ rfl outside)⟩

/-! ### STV -/

section Stv

variable {s : State} {w : Word} {a : BitVec 28} (h : s.atInstr w (.stv a))
include h

/-- Phase 6 of STV leads to phase 7 with SIR = ACC (R126). -/
theorem Executing.stv_latched : Executing s (.stv a) 6 { s.afterFetch w with sir := s.acc, ph := 7 } :=
  (Executing.ofFetch h).phase (exec_stv_latch a _ rfl) rfl

/-- A store that does not fault completes: the state is phase 7's, with PH = 1 (R126). -/
theorem steps_stv {t : State} (did : exec (.stv a) { s.afterFetch w with sir := s.acc, ph := 7 } = .next t)
    (quiet : t.fault = s.fault) : steps 12 s = .next { t with ph := 1 } :=
  ((Executing.stv_latched h).phase did quiet).rest (by decide) fun u lo => exec_stv_idle a u lo

/-- The net effect of STV to storage, with the memory it leaves (R56, R126). -/
theorem steps_stv_storage (inside : (operandWord a).toNat < s.cfg.memWords) :
    steps 12 s = .next { s.afterFetch w with
      sir := s.acc, sar := operandWord a, mem := s.mem.write (operandWord a).toNat s.acc, ph := 1 } :=
  steps_stv h (exec_stv_storage a _ rfl inside) rfl

end Stv

/-- Settles O34: the one cell written, by read after write. -/
theorem stvToStorageNetEffect : Obligations.StvToStorageNetEffect :=
  fun _ _ _ h inside => ⟨.inc, _, steps_stv_storage h inside, Memory.read_write_self _ _ _,
    fun _ hb => Memory.read_write_of_ne _ _ _ _ hb⟩

/-- Settles O35: the two ports and the discarded store. -/
theorem stvToIoNetEffect : Obligations.StvToIoNetEffect := by
  intro s w a h outside io
  by_cases char : operandWord a = s.cfg.ioCharPort
  · exact ⟨.inc, _, _, steps_stv h (exec_stv_char a _ rfl outside io char) rfl, fun _ => ⟨rfl, rfl⟩,
      fun ne _ => absurd char ne, fun ne _ => absurd char ne⟩
  · by_cases int : operandWord a = s.cfg.ioIntPort
    · exact ⟨.inc, _, _, steps_stv h (exec_stv_int a _ rfl outside io char int) rfl, fun eq => absurd eq char,
        fun _ _ => ⟨rfl, rfl⟩, fun _ ne => absurd int ne⟩
    · exact ⟨.inc, _, _, steps_stv h (exec_stv_discarded a _ rfl outside io char int) rfl, fun eq => absurd eq char,
        fun _ eq => absurd eq int, fun _ _ => ⟨rfl, rfl⟩⟩

/-- Settles O36: phase 7 commits neither SAR nor the store. -/
theorem stvToHoleFaults : Obligations.StvToHoleFaults :=
  fun _ _ a h outside hole => ⟨.inc, (Executing.stv_latched h).raises (exec_stv_hole a _ rfl outside hole)⟩

/-- Settles O24: IAR is left at the cell stored to, which the next fetch reads. -/
theorem storedWordIsFetchedNext : Obligations.StoredWordIsFetchedNext := by
  intro s w a h storage next
  have stored := steps_stv_storage h ((isStorage_iff _ _).mp storage)
  have at_ : State.atWord { s.afterFetch w with
      sir := s.acc, sar := operandWord a, mem := s.mem.write (operandWord a).toNat s.acc, ph := 1 } s.acc := by
    have cell : operandWord a = s.iar + 1 := next
    have fetchable : isStorage s.cfg (s.iar + 1) = true := cell ▸ storage
    refine ⟨h.1.1, rfl, fetchable, ?_⟩
    rw [cell]
    exact Memory.read_write_self _ _ _
  exact ⟨_, _, stored, at_, steps_five _ _ at_, rfl, rfl⟩

/-! ### LDC, the jumps and HLT -/

/-- The net effect of LDC (R127). -/
theorem steps_ldc (s : State) (w : Word) (c : BitVec 28) (h : s.atInstr w (.ldc c)) :
    steps 12 s = .next { s.afterFetch w with acc := operandWord c, ph := 1 } :=
  ((Executing.ofFetch h).phase (exec_ldc_phase6 c _ rfl) rfl).rest (by decide) fun u lo => exec_ldc_idle c u lo

/-- A 28-bit operand as a Word is the same number, and not negative (R78, R127). -/
theorem operandWord_toNat_toInt (v : BitVec 28) : (operandWord v).toNat = v.toNat ∧ 0 ≤ (operandWord v).toInt := by
  have number : (operandWord v).toNat = v.toNat := BitVec.toNat_setWidth_of_le (by decide)
  have size := v.isLt
  refine ⟨number, ?_⟩
  rw [BitVec.toInt_eq_toNat_cond, if_pos (by omega)]
  exact Int.natCast_nonneg _

/-- Settles O37: the constant has 28 bits, so bit 31 of ACC is clear. -/
theorem ldcNetEffect : Obligations.LdcNetEffect := by
  intro s w c h
  refine ⟨⟨.inc, steps_ldc s w c h⟩, fun t ht => ?_⟩
  cases (steps_ldc s w c h).symm.trans ht
  exact operandWord_toNat_toInt c

/-- Settles O38: phase 6 writes IAR or not; the other phases do nothing. -/
theorem jumpNetEffect : Obligations.JumpNetEffect := by
  refine ⟨fun s w d h => ⟨.inc, ?_⟩, fun s w d h => ⟨.inc, ?_⟩⟩
  · exact ((Executing.ofFetch h).phase (exec_jmp_phase6 d _ rfl) rfl).rest (by decide) fun u lo => exec_jmp_idle d u lo
  · by_cases negative : s.acc.toInt < 0
    · rw [if_pos negative]
      exact ((Executing.ofFetch h).phase (exec_jmn_taken d _ rfl negative) rfl).rest (by decide)
        fun u lo => exec_jmn_idle d u lo
    · rw [if_neg negative]
      exact ((Executing.ofFetch h).phase (exec_jmn_not_taken d _ (Int.not_lt.mp negative)) rfl).rest (by decide)
        fun u lo => exec_jmn_idle d u lo

/-- No run goes on from a halted machine (R95, R110). -/
theorem steps_of_halted (k : Nat) (s : State) (hr : s.run = false) (hf : s.fault = none) :
    steps (k + 1) s = .fault .halted := by
  rw [steps_succ, step_of_halted s hr hf]

/-- The net effect of HLT (R110, R145). -/
theorem steps_hlt (s : State) (w : Word) (h : s.atInstr w .hlt) :
    steps 12 s = .next { s.afterFetch w with run := false, ph := 1 } :=
  ((Executing.ofFetch h).idleUntil 11 (by decide) (by decide) fun u _ hi => exec_hlt_idle u (by omega)).last
    (exec_hlt_phase12 _ rfl) rfl

/-- Settles O42: no step before the twelfth can have raised a fault, since the twelfth answers, so RUN is still true
there; after it the machine is halted. -/
theorem hltNetEffect : Obligations.HltNetEffect := by
  intro s w h
  have done := steps_hlt s w h
  obtain ⟨⟨he, hp, _⟩, _⟩ := h
  refine ⟨⟨.inc, done⟩, fun k hk => ?_, fun k hk => ?_⟩
  · cases instrProgress k s he hp (by omega) with
    | through t run _ _ on => exact ⟨t, run, on hk⟩
    | stopped j t c le run fault _ =>
      have := eq_of_steps_next_of_faulted j 12 s t _ c (by omega) run fault done
      omega
  · obtain ⟨d, rfl⟩ : ∃ d, k = 12 + (d + 1) := ⟨k - 13, by omega⟩
    rw [steps_add 12 (d + 1) s _ done]
    exact steps_of_halted d _ rfl he.2

/-! ### NOT and the rotates -/

/-- Phases 6 to 9 of NOT and the rotates: X takes ACC (R136 to R138). -/
theorem Executing.unary_latched {s : State} {w : Word} {i : Instr} (h : s.atInstr w i)
    (hi : i = .not ∨ ∃ k, rotateMeaning i = some k) :
    Executing s i 9 { s.afterFetch w with x := s.acc, ph := 10 } := by
  have first := (Executing.ofFetch h).phase (exec_unary_idle i _ hi (.inl rfl)) rfl
  have acc := first.phase (exec_latchAcc (hi.imp_right .inr) _ rfl) rfl
  have wait := acc.phase (exec_unary_idle i _ hi (.inr (.inl rfl))) rfl
  exact wait.phase (exec_unary_idle i _ hi (.inr (.inr rfl))) rfl

/-- Settles O39: phases 10 to 12 of NOT, which do not write Y. -/
theorem notNetEffect : Obligations.NotNetEffect := by
  intro s w h
  obtain ⟨tag, tagged⟩ := exec_not_phase10 _ (Executing.unary_latched h (.inl rfl)).ph
  have selected := (Executing.unary_latched h (.inl rfl)).phase tagged rfl
  have result := selected.phase (exec_not_complement _ rfl) rfl
  exact ⟨tag, result.last (exec_accFromZ (.inl rfl) _ rfl) rfl⟩

/-- Phase 10 of a rotate leads to phase 11 with Y the amount (R137, R138). -/
theorem Executing.rotate_latched {s : State} {w : Word} {i : Instr} {k : Word} (h : s.atInstr w i)
    (hi : rotateMeaning i = some k) :
    ∃ tag, Executing s i 10 { s.afterFetch w with x := s.acc, y := k, alu := tag, ph := 11 } := by
  have latched := Executing.unary_latched h (.inr ⟨k, hi⟩)
  obtain ⟨tag, amount⟩ := exec_latchAmount hi _ latched.ph
  exact ⟨tag, latched.phase amount rfl⟩

/-- Settles O40: phases 11 and 12 of a rotate by at most 32. -/
theorem rotateNetEffect : Obligations.RotateNetEffect := by
  intro s w i k h hi hk
  obtain ⟨tag, amount⟩ := Executing.rotate_latched h hi
  have result := amount.phase (exec_rotate hi _ rfl hk) rfl
  exact ⟨tag, result.last (exec_accFromZ (.inr (.inr ⟨k, hi⟩)) _ rfl) rfl⟩

/-- Settles O41: phase 11 draws a free value, and phase 12 follows as after any rotate. -/
theorem rotateOver32Completes : Obligations.RotateOver32Completes := by
  intro s w n h hn
  have hi : rotateMeaning (.rrn n) = some (operandWord n) := rfl
  have above : 32 < (operandWord n).toNat := by rwa [(operandWord_toNat_toInt n).1]
  obtain ⟨tag, amount⟩ := Executing.rotate_latched h hi
  obtain ⟨v, drawn⟩ := exec_rotate_draws hi _ amount.ph above
  have result := amount.phase drawn rfl
  exact ⟨tag, v, result.last (exec_accFromZ (.inr (.inr ⟨_, hi⟩)) _ rfl) rfl⟩

end Sys2Proof.Machine
end

section
/-! SUPPORT. The ALU tag is never read (spec/10_state.md R33), as a relation kept by every operation, and the ends of
the run loop (spec/40_sequencer.md R105). -/

namespace Sys2Proof.Machine

/-! ### States that differ in the ALU tag alone -/

/-- To differ in the tag alone is to be the other with a tag of its own. -/
theorem State.sameButTag_iff (s t : State) : s.sameButTag t ↔ ∃ tag, t = { s with alu := tag } :=
  ⟨fun h => ⟨t.alu, h.symm⟩, fun ⟨_, h⟩ => by rw [h]; rfl⟩

/-- Related outcomes: both next, with states that differ in the tag alone, or the same stop. -/
theorem sameOutcomeButTag_iff (a b : StepOutcome) :
    sameOutcomeButTag a b ↔
      (∃ s tag, a = .next s ∧ b = .next { s with alu := tag }) ∨
      (∃ r, a = .fault r ∧ b = .fault r) ∨ ∃ r, a = .refused r ∧ b = .refused r := by
  cases a <;> cases b <;> simp [sameOutcomeButTag, State.sameButTag_iff, eq_comm]

section Tag

variable (s : State) (tag : AluTag)

/-- The read of phase 9 does not read the tag. -/
theorem readToSir_sameButTag : sameOutcomeButTag s.readToSir (State.readToSir { s with alu := tag }) := by
  have same : State.memRead { s with alu := tag } s.sar = s.memRead s.sar := rfl
  unfold State.readToSir
  rw [same]
  cases s.memRead s.sar <;> rfl

theorem aluGroup_sameButTag (t : AluTag) (op : Word → Word → Word) (a : BitVec 28) :
    sameOutcomeButTag (aluGroup t op a s) (aluGroup t op a { s with alu := tag }) := by
  cases s
  dsimp only [aluGroup]
  split
  case h_3 => exact readToSir_sameButTag _ tag
  all_goals rfl

theorem execLdv_sameButTag (a : BitVec 28) :
    sameOutcomeButTag (execLdv a s) (execLdv a { s with alu := tag }) := by
  cases s
  dsimp only [execLdv]
  split
  case h_2 => exact readToSir_sameButTag _ tag
  all_goals rfl

/-- A write with another tag is the same write, with that tag. -/
theorem memWrite_retag (a v : Word) :
    State.memWrite { s with alu := tag } a v = (s.memWrite a v).map fun t => { t with alu := tag } := by
  dsimp only [State.memWrite]
  split_ifs <;> rfl

/-- STV's store does not read the tag. -/
theorem storePhase_sameButTag (a : BitVec 28) :
    sameOutcomeButTag (storePhase a s) (storePhase a { s with alu := tag }) := by
  have same := memWrite_retag { s with sar := operandWord a } tag (operandWord a) s.sir
  dsimp only [storePhase]
  rw [same]
  cases State.memWrite { s with sar := operandWord a } (operandWord a) s.sir <;> rfl

theorem execStv_sameButTag (a : BitVec 28) :
    sameOutcomeButTag (execStv a s) (execStv a { s with alu := tag }) := by
  cases s
  dsimp only [execStv]
  split
  case h_2 => exact storePhase_sameButTag _ tag a
  all_goals rfl

theorem rotateToZ_sameButTag : s.rotateToZ.sameButTag (State.rotateToZ { s with alu := tag }) := by
  unfold State.rotateToZ
  split <;> rfl

theorem rotateGroup_sameButTag (k : Word) :
    sameOutcomeButTag (rotateGroup k s) (rotateGroup k { s with alu := tag }) := by
  cases s
  dsimp only [rotateGroup]
  split
  case h_3 => exact rotateToZ_sameButTag _ tag
  all_goals rfl

theorem execNot_sameButTag : sameOutcomeButTag (execNot s) (execNot { s with alu := tag }) := by
  cases s
  dsimp only [execNot]
  split <;> rfl

theorem execJmn_sameButTag (d : BitVec 28) :
    sameOutcomeButTag (execJmn d s) (execJmn d { s with alu := tag }) := by
  cases s
  dsimp only [execJmn]
  split
  · split <;> rfl
  · rfl

/-- No handler reads the tag. -/
theorem exec_sameButTag (i : Instr) : sameOutcomeButTag (exec i s) (exec i { s with alu := tag }) := by
  cases i with
  | and | or | xor | add | eql => exact aluGroup_sameButTag s tag _ _ _
  | ldv a => exact execLdv_sameButTag s tag a
  | stv a => exact execStv_sameButTag s tag a
  | rar | rrn => exact rotateGroup_sameButTag s tag _
  | not => exact execNot_sameButTag s tag
  | jmn d => exact execJmn_sameButTag s tag d
  | ldc | jmp | hlt =>
    cases s
    dsimp only [exec, execLdc, execJmp, execHlt]
    split <;> rfl

/-- No fetch phase reads the tag. -/
theorem fetchPhase_sameButTag : sameOutcomeButTag (fetchPhase s) (fetchPhase { s with alu := tag }) := by
  have read : sameOutcomeButTag (fetchRead s) (fetchRead { s with alu := tag }) := by
    have same : State.memRead { s with alu := tag } s.sar = s.memRead s.sar := rfl
    unfold fetchRead
    rw [same]
    cases s.memRead s.sar <;> rfl
  cases s
  dsimp only [fetchPhase]
  split
  case h_4 => exact read
  all_goals rfl

/-- The end of a phase does not read the tag. -/
theorem endPhase_sameButTag (a b : StepOutcome) (h : sameOutcomeButTag a b) :
    sameOutcomeButTag (endPhase a) (endPhase b) := by
  rcases (sameOutcomeButTag_iff a b).mp h with ⟨s, tag, rfl, rfl⟩ | ⟨r, rfl, rfl⟩ | ⟨r, rfl, rfl⟩
  · dsimp only [endPhase, State.endPhase]
    split <;> rfl
  · rfl
  · rfl

/-- Dispatch does not read the tag. -/
theorem executePhase_sameButTag :
    sameOutcomeButTag (executePhase exec s) (executePhase exec { s with alu := tag }) := by
  dsimp only [executePhase]
  split
  · exact exec_sameButTag s tag _
  · rfl

/-- No step reads the tag. -/
theorem step_sameButTag : sameOutcomeButTag (step s) (step { s with alu := tag }) := by
  have phase : sameOutcomeButTag (phaseStep exec s) (phaseStep exec { s with alu := tag }) := by
    dsimp only [phaseStep]
    split_ifs
    · rfl
    · exact endPhase_sameButTag _ _ (fetchPhase_sameButTag s tag)
    · exact endPhase_sameButTag _ _ (executePhase_sameButTag s tag)
  dsimp only [step, stepWith]
  split
  · rfl
  · split_ifs
    · exact phase
    · rfl

end Tag

/-- Settles O55, by induction on the number of steps: each keeps the relation. -/
theorem aluTagIsNeverRead : Obligations.AluTagIsNeverRead := by
  intro k
  induction k with
  | zero => exact fun _ _ => rfl
  | succ k ih =>
    intro s tag
    rw [steps_succ, steps_succ]
    rcases (sameOutcomeButTag_iff _ _).mp (step_sameButTag s tag) with ⟨t, tag', e, e'⟩ | ⟨r, e, e'⟩ | ⟨r, e, e'⟩ <;>
      rw [e, e']
    · exact ih t tag'
    · rfl
    · rfl

/-! ### The run loop -/

/-- The three ways a step can go: stopped by a fault, halted, or enabled and answering a next state (R95). -/
theorem step_stops_or_next (s : State) :
    (∃ c, s.fault = some c ∧ step s = .fault (.faulted c)) ∨
    (s.fault = none ∧ s.run = false ∧ step s = .fault .halted) ∨ (s.enabled ∧ ∃ t, step s = .next t) := by
  by_cases he : s.enabled
  · exact .inr (.inr ⟨he, step_next_of_enabled s he⟩)
  · cases hf : s.fault with
    | some c => exact .inl ⟨c, rfl, step_of_faulted s c hf⟩
    | none =>
      have off : s.run = false := Bool.eq_false_iff.mpr fun on => he ⟨on, hf⟩
      exact .inr (.inl ⟨rfl, off, step_of_halted s off hf⟩)

/-- What the end of a run from s, in at most n steps, says of its state (R105). -/
def RunEnd.Sound (n : Nat) (s : State) : RunEnd → Prop
  | .halted t => t.haltedNormally ∧ ∃ k, k ≤ n ∧ steps k s = .next t
  | .faulted c t => t.fault = some c ∧ t.run = true ∧ ∃ k, k ≤ n ∧ steps k s = .next t
  | .running t => t.enabled ∧ steps n s = .next t
  | .refused _ _ => False

/-- An end that is sound after one step is sound before it. -/
theorem RunEnd.Sound.before {n : Nat} {s t : State} {e : RunEnd} (h : e.Sound n t) (first : step s = .next t) :
    e.Sound (n + 1) s := by
  have later (k : Nat) (u : State) (run : steps k t = .next u) : steps (k + 1) s = .next u :=
    (steps_succ_next k s t first).trans run
  cases e with
  | halted u =>
    obtain ⟨normal, k, le, run⟩ := h
    exact ⟨normal, k + 1, Nat.succ_le_succ le, later k u run⟩
  | faulted c u =>
    obtain ⟨fault, on, k, le, run⟩ := h
    exact ⟨fault, on, k + 1, Nat.succ_le_succ le, later k u run⟩
  | running u => exact ⟨h.1, later n u h.2⟩
  | refused r u => exact h

/-- A machine whose RUN is false is at rest: PH = 1 and no fault (R110, R145). -/
def State.RestsIfOff (s : State) : Prop := s.run = false → s.ph = 1 ∧ s.fault = none

theorem State.RestsIfOff.run_of_fault {s : State} {c : FaultCause} (rest : s.RestsIfOff) (hf : s.fault = some c) :
    s.run = true := by
  cases hr : s.run with
  | true => rfl
  | false => cases hf.symm.trans (rest hr).2

/-- The only step that clears RUN leaves the machine at rest. -/
theorem step_restsIfOff (s t : State) (h : step s = .next t) : t.RestsIfOff := by
  intro off
  obtain ⟨⟨on, hf⟩, _⟩ := effect_of_step s t h
  obtain ⟨_, rfl⟩ := step_clears_run s t h (by simp [on, off])
  exact ⟨rfl, hf⟩

/-- The run loop's end is sound: a run that stops at once is at its end, one that does not goes on from the next
state. -/
theorem runLoop_sound (n : Nat) (s : State) (rest : s.RestsIfOff) : (runLoop n s).Sound n s := by
  induction n generalizing s with
  | zero =>
    unfold runLoop
    rcases step_stops_or_next s with ⟨c, hf, e⟩ | ⟨hf, off, e⟩ | ⟨he, t, e⟩ <;> rw [e]
    · exact ⟨hf, rest.run_of_fault hf, 0, le_rfl, rfl⟩
    · exact ⟨⟨off, hf, (rest off).1⟩, 0, le_rfl, rfl⟩
    · exact ⟨he, rfl⟩
  | succ n ih =>
    unfold runLoop
    rcases step_stops_or_next s with ⟨c, hf, e⟩ | ⟨hf, off, e⟩ | ⟨he, t, e⟩ <;> rw [e]
    · exact ⟨hf, rest.run_of_fault hf, 0, Nat.zero_le _, rfl⟩
    · exact ⟨⟨off, hf, (rest off).1⟩, 0, Nat.zero_le _, rfl⟩
    · exact (ih t (step_restsIfOff s t e)).before e

/-- Settles O60: what the loop reports is sound. -/
theorem runLoopEndsAsSpecified : Obligations.RunLoopEndsAsSpecified := by
  intro n s rest quiet
  have sound := runLoop_sound n s fun off => ⟨rest off, quiet⟩
  refine ⟨fun t e => ?_, fun c t e => ?_, fun t e => ?_, fun r t e => ?_⟩ <;>
    rw [e] at sound <;> exact sound

end Sys2Proof.Machine
end
